-- ==== Sys2Proof/Word.lean ====
section
/-! DEFINITION. The widths of the machine: the byte of the digest buffer, the 32-bit word of the
host port, and the 38-bit serialised transaction word `T`. -/

namespace Sys2Proof

/-- One byte of the digest buffer (R20, R21). -/
abbrev Byte := BitVec 8

/-- The data width of every register and of the port, `DATA_W` = 32 (R12, R60). -/
abbrev Word := BitVec 32

/-- A serialised transaction `T`: `we` in bit 37, `widx` in bits 36:32, `data` in bits 31:0 (R61). -/
abbrev TWord := BitVec 38

end Sys2Proof
end

