-- ==== Sys2Proof/Config.lean ====
section
/-! DEFINITION. The implementation parameters of R12: the constants the spec fixes, and the one OPEN
parameter a transaction can meet, `BASE`. -/

namespace Sys2Proof

/-- `DIGITS_MIN` (R12; `validDigits_eq_range` ties the check of a `CFG` write to it). -/
def Config.digitsMin : Nat := 6

/-- `DIGITS_MAX` (R12). -/
def Config.digitsMax : Nat := 8

/-- `DIGITS_DEFAULT`, the reset value of `CFG.DIGITS` (R12, R23). -/
def Config.digitsDefault : BitVec 4 := 6

/-- `ALG_DEFAULT`, SHA-1, the reset value of `CFG.ALG` (R12, R24). -/
def Config.algDefault : BitVec 2 := 0

/-- `DIGEST_BYTES`, the size of the digest buffer (R12, R21). -/
def Config.digestBytes : Nat := 64

/-- The size in bytes of the register window: 32 word slots (R12, R40). -/
def Config.windowSize : Nat := 128

/-- `BASE`, the platform byte address of the register window. The spec leaves it OPEN (R12, R50), so
it has no body: a claim about a bus access holds wherever the window lies. -/
opaque Config.base : Nat

end Sys2Proof
end

