-- ==== Sys2Proof/Syntax.lean ====
section
/-! DEFINITION. The instructions of the machine: the host transactions of spec/opcode_table.json, one
constructor per row, with the row's fields as arguments; and the slots of the register map. -/

namespace Sys2Proof

/-- The slots of the register window (R62), one name for each row of the map and the two reserved
patterns of the opcode table. -/
inductive Slot
  | cmd
  | status
  | err
  | cfg
  | offset
  | value
  | code
  /-- `0x1C` -/
  | rsvd7
  /-- `0x20 + 4r` -/
  | rsvd8to15 (r : BitVec 3)
  /-- `0x40 + 4k` -/
  | digestw (k : BitVec 4)
  deriving DecidableEq, Repr

/-- A host transaction. A field the hardware ignores is kept, so that no bit of a transaction word is
lost between the word and its instruction (R61, R63). -/
inductive Instr
  /-- `NOP`: `CMD` word 0 (R130). -/
  | nop
  /-- `TRUNC`: `CMD` word 1 (R110). -/
  | trunc
  /-- `CLEAR`: `CMD` word 2 (R132). -/
  | clear
  /-- `CMD.ILLEGAL`: any other `CMD` word (R67, R134). -/
  | cmdIllegal (data : Word)
  /-- `WR.STATUS` (R86). -/
  | wrStatus (data : Word)
  /-- `WR.ERR`: `m` is `data[3:0]`, `ignored` is `data[31:4]` (R88). -/
  | wrErr (ignored : BitVec 28) (m : BitVec 4)
  /-- `WR.CFG`: `data[31:10]`, `data[9:8]`, `data[7:4]`, `data[3:0]` (R90). -/
  | wrCfg (ignoredHi : BitVec 22) (alg : BitVec 2) (ignoredLo : BitVec 4) (digits : BitVec 4)
  /-- `WR.OFFSET` (R86). -/
  | wrOffset (data : Word)
  /-- `WR.VALUE` (R86). -/
  | wrValue (data : Word)
  /-- `WR.CODE` (R86). -/
  | wrCode (data : Word)
  /-- `WR.RSVD7`: slot `0x1C` (R95). -/
  | wrRsvd7 (data : Word)
  /-- `WR.RSVD8_15`: slots `0x20` to `0x3C` (R95). -/
  | wrRsvd8to15 (r : BitVec 3) (data : Word)
  /-- `WR.DIGESTW`: `byte0` is `data[31:24]`, `byte3` is `data[7:0]` (R63, R100). -/
  | wrDigestw (k : BitVec 4) (byte0 byte1 byte2 byte3 : Byte)
  /-- `RD.CMD` (R84). -/
  | rdCmd
  /-- `RD.STATUS` (R85). -/
  | rdStatus
  /-- `RD.ERR` (R87). -/
  | rdErr
  /-- `RD.CFG` (R89). -/
  | rdCfg
  /-- `RD.OFFSET` (R91). -/
  | rdOffset
  /-- `RD.VALUE` (R92). -/
  | rdValue
  /-- `RD.CODE` (R93). -/
  | rdCode
  /-- `RD.RSVD7`: slot `0x1C` (R94). -/
  | rdRsvd7
  /-- `RD.RSVD8_15`: slots `0x20` to `0x3C` (R94). -/
  | rdRsvd8to15 (r : BitVec 3)
  /-- `RD.DIGESTW` (R99). -/
  | rdDigestw (k : BitVec 4)
  deriving DecidableEq, Repr

end Sys2Proof
end

