-- ==== Sys2Proof/WellFormed.lean ====
section
/-! DEFINITION. Which instruction terms stand for a transaction of the spec. The widths of the fields
are the types'; the one check left is that an illegal-command term holds an illegal word. -/

namespace Sys2Proof

/-- A `CMD` word is illegal when it is none of the three commands (R67). -/
def illegalCommandWord (data : Word) : Bool :=
  data != 0x00000000 && data != 0x00000001 && data != 0x00000002

/-- The well-formed instructions: those some transaction word stands for. -/
def Instr.wellFormed : Instr → Bool
  | .cmdIllegal data => illegalCommandWord data
  | .nop | .trunc | .clear => true
  | .wrStatus _ | .wrErr _ _ | .wrCfg _ _ _ _ | .wrOffset _ | .wrValue _ | .wrCode _ => true
  | .wrRsvd7 _ | .wrRsvd8to15 _ _ | .wrDigestw _ _ _ _ _ => true
  | .rdCmd | .rdStatus | .rdErr | .rdCfg | .rdOffset | .rdValue | .rdCode => true
  | .rdRsvd7 | .rdRsvd8to15 _ | .rdDigestw _ => true

end Sys2Proof
end

