-- ==== Sys2Proof/Decode.lean ====
section
/-! DEFINITION. The decoder from the 38-bit transaction word `T` to an instruction, total and rejecting
by name; the encoder, from the same tables; and the opcode table itself, as rows of match and mask. -/

namespace Sys2Proof

/-- Why a 38-bit word is no serialised transaction. -/
inductive DecodeError
  /-- `we` = 0 and the data field is not zero: the serialisation of a read has all data bits zero
  (R61), and no row of the opcode table matches (log entry 7). -/
  | readDataNotZero
  deriving DecidableEq, Repr

/-! ### The fields of `T` (R61) -/

/-- `we`, bit 37. -/
def tWe (t : TWord) : Bool := t.getLsbD 37

/-- `widx`, bits 36:32. -/
def tWidx (t : TWord) : BitVec 5 := t.extractLsb' 32 5

/-- `data`, bits 31:0. -/
def tData (t : TWord) : Word := t.extractLsb' 0 32

/-- The word `T` with the three given fields: `w aaaaa dddddddddddddddddddddddddddddddd`. -/
def tWord (we : Bool) (widx : BitVec 5) (data : Word) : TWord :=
  (BitVec.ofBool we ++ widx) ++ data

/-! ### The register map (R62) -/

/-- The slots of word index 0 to 7. -/
def slotLow (w : BitVec 3) : Slot :=
  if w = 0 then .cmd
  else if w = 1 then .status
  else if w = 2 then .err
  else if w = 3 then .cfg
  else if w = 4 then .offset
  else if w = 5 then .value
  else if w = 6 then .code
  else .rsvd7

/-- The slot a word index selects. -/
def slotOfWidx (w : BitVec 5) : Slot :=
  if w.getLsbD 4 then .digestw (w.extractLsb' 0 4)
  else if w.getLsbD 3 then .rsvd8to15 (w.extractLsb' 0 3)
  else slotLow (w.extractLsb' 0 3)

/-- The word index of a slot. -/
def widxOfSlot : Slot → BitVec 5
  | .cmd => 0
  | .status => 1
  | .err => 2
  | .cfg => 3
  | .offset => 4
  | .value => 5
  | .code => 6
  | .rsvd7 => 7
  | .rsvd8to15 r => 0b01#2 ++ r
  | .digestw k => 0b1#1 ++ k

/-! ### Decoding -/

/-- The command in a `CMD` word: all 32 bits select it (R65 to R67). -/
def decodeCommand (data : Word) : Instr :=
  if data = 0x00000000 then .nop
  else if data = 0x00000001 then .trunc
  else if data = 0x00000002 then .clear
  else .cmdIllegal data

/-- A write transaction, its operands assembled as R63 says. -/
def decodeWrite (slot : Slot) (data : Word) : Instr :=
  match slot with
  | .cmd => decodeCommand data
  | .status => .wrStatus data
  | .err => .wrErr (data.extractLsb' 4 28) (data.extractLsb' 0 4)
  | .cfg =>
    .wrCfg (data.extractLsb' 10 22) (data.extractLsb' 8 2) (data.extractLsb' 4 4)
      (data.extractLsb' 0 4)
  | .offset => .wrOffset data
  | .value => .wrValue data
  | .code => .wrCode data
  | .rsvd7 => .wrRsvd7 data
  | .rsvd8to15 r => .wrRsvd8to15 r data
  | .digestw k =>
    .wrDigestw k (data.extractLsb' 24 8) (data.extractLsb' 16 8) (data.extractLsb' 8 8)
      (data.extractLsb' 0 8)

/-- A read transaction. -/
def decodeRead (slot : Slot) : Instr :=
  match slot with
  | .cmd => .rdCmd
  | .status => .rdStatus
  | .err => .rdErr
  | .cfg => .rdCfg
  | .offset => .rdOffset
  | .value => .rdValue
  | .code => .rdCode
  | .rsvd7 => .rdRsvd7
  | .rsvd8to15 r => .rdRsvd8to15 r
  | .digestw k => .rdDigestw k

/-- The decoder: split `T` into `we`, `widx`, `data`, select the register by `widx`, and for a write to
`CMD` decode the command (R66). -/
def decode (t : TWord) : Except DecodeError Instr :=
  if tWe t then .ok (decodeWrite (slotOfWidx (tWidx t)) (tData t))
  else if tData t = 0 then .ok (decodeRead (slotOfWidx (tWidx t)))
  else .error .readDataNotZero

/-- The instruction in a word numbered as the opcode table numbers its bits: bit 0 is bit 0 of `T`. A
number that does not fit the 38 bits of `T` is no transaction. -/
def decodeTableWord (nbits w : Nat) : Option Instr :=
  if w % 2 ^ nbits < 2 ^ 38 then (decode (BitVec.ofNat 38 (w % 2 ^ nbits))).toOption else none

/-! ### Encoding -/

/-- The slot an instruction is directed at. -/
def Instr.slot : Instr → Slot
  | .nop | .trunc | .clear | .cmdIllegal _ | .rdCmd => .cmd
  | .wrStatus _ | .rdStatus => .status
  | .wrErr _ _ | .rdErr => .err
  | .wrCfg _ _ _ _ | .rdCfg => .cfg
  | .wrOffset _ | .rdOffset => .offset
  | .wrValue _ | .rdValue => .value
  | .wrCode _ | .rdCode => .code
  | .wrRsvd7 _ | .rdRsvd7 => .rsvd7
  | .wrRsvd8to15 r _ | .rdRsvd8to15 r => .rsvd8to15 r
  | .wrDigestw k _ _ _ _ | .rdDigestw k => .digestw k

/-- Whether an instruction is a write transaction (`we` = 1). -/
def Instr.isWrite : Instr → Bool
  | .nop | .trunc | .clear | .cmdIllegal _ => true
  | .wrStatus _ | .wrErr _ _ | .wrCfg _ _ _ _ | .wrOffset _ | .wrValue _ | .wrCode _ => true
  | .wrRsvd7 _ | .wrRsvd8to15 _ _ | .wrDigestw _ _ _ _ _ => true
  | .rdCmd | .rdStatus | .rdErr | .rdCfg | .rdOffset | .rdValue | .rdCode => false
  | .rdRsvd7 | .rdRsvd8to15 _ | .rdDigestw _ => false

/-- The data field of an instruction's word: the write data, or zero for a read (R61). -/
def Instr.data : Instr → Word
  | .nop => 0x00000000
  | .trunc => 0x00000001
  | .clear => 0x00000002
  | .cmdIllegal data => data
  | .wrStatus data | .wrOffset data | .wrValue data | .wrCode data => data
  | .wrRsvd7 data | .wrRsvd8to15 _ data => data
  | .wrErr ignored m => ignored ++ m
  | .wrCfg ignoredHi alg ignoredLo digits => ignoredHi ++ alg ++ ignoredLo ++ digits
  | .wrDigestw _ byte0 byte1 byte2 byte3 => byte0 ++ byte1 ++ byte2 ++ byte3
  | .rdCmd | .rdStatus | .rdErr | .rdCfg | .rdOffset | .rdValue | .rdCode => 0
  | .rdRsvd7 | .rdRsvd8to15 _ | .rdDigestw _ => 0

/-- The transaction word of an instruction. -/
def encode (i : Instr) : TWord := tWord i.isWrite (widxOfSlot i.slot) i.data

/-! ### The opcode table -/

/-- One row of spec/opcode_table.json: a word `T` matches when `T & mask = pattern` (R66). -/
structure OpcodeRow where
  mnemonic : String
  pattern : TWord
  mask : TWord
  deriving DecidableEq, Repr

/-- The rows of the write transactions, in the table's order. -/
def opcodeTableWrites : List OpcodeRow :=
  [⟨"NOP", 0x2000000000, 0x3FFFFFFFFF⟩,
   ⟨"TRUNC", 0x2000000001, 0x3FFFFFFFFF⟩,
   ⟨"CLEAR", 0x2000000002, 0x3FFFFFFFFF⟩,
   ⟨"CMD.ILLEGAL", 0x2000000000, 0x3F00000000⟩,
   ⟨"WR.STATUS", 0x2100000000, 0x3F00000000⟩,
   ⟨"WR.ERR", 0x2200000000, 0x3F00000000⟩,
   ⟨"WR.CFG", 0x2300000000, 0x3F00000000⟩,
   ⟨"WR.OFFSET", 0x2400000000, 0x3F00000000⟩,
   ⟨"WR.VALUE", 0x2500000000, 0x3F00000000⟩,
   ⟨"WR.CODE", 0x2600000000, 0x3F00000000⟩,
   ⟨"WR.RSVD7", 0x2700000000, 0x3F00000000⟩,
   ⟨"WR.RSVD8_15", 0x2800000000, 0x3800000000⟩,
   ⟨"WR.DIGESTW", 0x3000000000, 0x3000000000⟩]

/-- The rows of the read transactions, in the table's order. -/
def opcodeTableReads : List OpcodeRow :=
  [⟨"RD.CMD", 0x0000000000, 0x3FFFFFFFFF⟩,
   ⟨"RD.STATUS", 0x0100000000, 0x3FFFFFFFFF⟩,
   ⟨"RD.ERR", 0x0200000000, 0x3FFFFFFFFF⟩,
   ⟨"RD.CFG", 0x0300000000, 0x3FFFFFFFFF⟩,
   ⟨"RD.OFFSET", 0x0400000000, 0x3FFFFFFFFF⟩,
   ⟨"RD.VALUE", 0x0500000000, 0x3FFFFFFFFF⟩,
   ⟨"RD.CODE", 0x0600000000, 0x3FFFFFFFFF⟩,
   ⟨"RD.RSVD7", 0x0700000000, 0x3FFFFFFFFF⟩,
   ⟨"RD.RSVD8_15", 0x0800000000, 0x38FFFFFFFF⟩,
   ⟨"RD.DIGESTW", 0x1000000000, 0x30FFFFFFFF⟩]

/-- spec/opcode_table.json, most specific row first. -/
def opcodeTable : List OpcodeRow := opcodeTableWrites ++ opcodeTableReads

/-- The mnemonic of the first row a word matches (R66). -/
def tableMnemonic (t : TWord) : Option String :=
  (opcodeTable.find? fun row => t &&& row.mask == row.pattern).map OpcodeRow.mnemonic

/-- The mnemonic of an instruction, as the opcode table spells it. -/
def Instr.mnemonic : Instr → String
  | .nop => "NOP"
  | .trunc => "TRUNC"
  | .clear => "CLEAR"
  | .cmdIllegal _ => "CMD.ILLEGAL"
  | .wrStatus _ => "WR.STATUS"
  | .wrErr _ _ => "WR.ERR"
  | .wrCfg _ _ _ _ => "WR.CFG"
  | .wrOffset _ => "WR.OFFSET"
  | .wrValue _ => "WR.VALUE"
  | .wrCode _ => "WR.CODE"
  | .wrRsvd7 _ => "WR.RSVD7"
  | .wrRsvd8to15 _ _ => "WR.RSVD8_15"
  | .wrDigestw _ _ _ _ _ => "WR.DIGESTW"
  | .rdCmd => "RD.CMD"
  | .rdStatus => "RD.STATUS"
  | .rdErr => "RD.ERR"
  | .rdCfg => "RD.CFG"
  | .rdOffset => "RD.OFFSET"
  | .rdValue => "RD.VALUE"
  | .rdCode => "RD.CODE"
  | .rdRsvd7 => "RD.RSVD7"
  | .rdRsvd8to15 _ => "RD.RSVD8_15"
  | .rdDigestw _ => "RD.DIGESTW"

end Sys2Proof
end

