-- ==== Sys2Proof/Machine/State.lean ====
section
/-! DEFINITION. The state of the machine (R20), the reasons a step can stop, and the state after reset. -/

namespace Sys2Proof.Machine

/-- The digest byte space (R40): the bytes of `DIGEST` that are not zero, with their indices. A byte
that is not listed reads 0x00, its reset value (R37). The canonical form is `Memory.wf`. -/
abbrev Memory := List Host.Cell

/-- The canonical form of a digest buffer: indices strictly rising, all below 64, and no listed byte
equal to the 0x00 an unlisted one reads as. -/
abbrev Memory.wf (m : Memory) : Prop :=
  m.Pairwise (fun x y => x.1 < y.1) ∧ ∀ c ∈ m, c.1 < Config.digestBytes ∧ c.2 ≠ 0

/-- The four errors of the machine (R140 to R143). -/
inductive Error
  /-- ConfigurationError, code 0 (R140). -/
  | cfg
  /-- UnsupportedAlgorithmError, code 1 (R141). -/
  | alg
  /-- IllegalCommand, code 2 (R142). -/
  | cmd
  /-- WriteWhileBusy, code 3 (R143). -/
  | busy
  deriving DecidableEq, Repr

/-- The `ERR` register: four sticky flags (R32). -/
structure ErrFlags where
  /-- `ERR.CFG`, bit 0 -/
  cfg : Bool
  /-- `ERR.ALG`, bit 1 -/
  alg : Bool
  /-- `ERR.CMD`, bit 2 -/
  cmd : Bool
  /-- `ERR.BUSY`, bit 3 -/
  busy : Bool
  deriving DecidableEq, Repr

/-- An access by byte address that a host aims at the register window (R47, R50): a write or a read,
its platform byte address, its width in bytes and its write data. -/
structure Access where
  write : Bool
  addr : Nat
  bytes : Nat
  data : Word
  deriving DecidableEq, Repr

/-- A move of one of the agents of R8. -/
inductive Event
  /-- The host presents a transaction, given by its word `T` (R61). -/
  | transaction (t : TWord)
  /-- The host aims an access by byte address at the window (R47, R50). -/
  | access (a : Access)
  /-- The engine has its turn: it completes the operation in flight, if there is one (R117). -/
  | engine
  /-- The environment drives the input `rst`: asserted or released (R160, R162). -/
  | rst (asserted : Bool)
  deriving DecidableEq, Repr

/-- The state. The fields from `digest` to `err` are the tuple of R20 and hold all the spec gives the
machine; `rdata` and `rst` are the port's read data and reset input (R60); `schedule` is the model's
own: which agent moves next (log entry 1). -/
structure State where
  /-- `DIGEST[0..63]` (R21) -/
  digest : Memory
  /-- `CFG.DIGITS` (R23) -/
  digits : BitVec 4
  /-- `CFG.ALG` (R24) -/
  alg : BitVec 2
  /-- `OFFSET` (R25) -/
  offset : BitVec 4
  /-- `VALUE` (R26) -/
  value : BitVec 31
  /-- `CODE` (R27) -/
  code : BitVec 27
  /-- `STATUS.BUSY`: the sequencer is in `RUN` (R28) -/
  busy : Bool
  /-- `STATUS.DONE` (R30) -/
  done : Bool
  /-- `ERR` (R32) -/
  err : ErrFlags
  /-- What the last step returned on `rdata`: a read's value, or none where the step was no read
  (R60: meaningful for reads; log entry 4) -/
  rdata : Option Word
  /-- The input `rst` is asserted (R60, R162; log entry 5) -/
  rst : Bool
  /-- The moves to come, the next first (R8; log entry 1) -/
  schedule : List Event
  deriving DecidableEq, Repr

/-- Why the machine stops. Both are raised by the engine's completion step alone, and only in a state
whose `CFG` holds a value R35 says it never holds: no run reaches one (`Safety.lean`). -/
inductive Fault
  /-- `CFG.ALG` = 3, for which R24 gives no digest length. Safe (log entry 8). -/
  | algorithmReserved
  /-- `CFG.DIGITS` is not 6, 7 or 8, for which R115 gives no modulus. Safe (log entry 8). -/
  | digitsIllegal
  deriving DecidableEq, Repr

/-- Why a move has no meaning. -/
inductive Refusal
  /-- An instruction without a meaning; raised by no arm of `exec`. Safe. -/
  | notModelled (mnemonic : String)
  /-- A word that is no serialised transaction (R61); raised for a host transaction. Safe (log entry 7). -/
  | undecodable (reason : DecodeError)
  /-- A transaction presented while `rst` is asserted (R162: not defined, refused). Safe (log entry 5). -/
  | transactionDuringReset
  /-- A narrow, misaligned or outlying access (R47: refused). Safe (log entry 6). -/
  | inexpressibleAccess
  deriving DecidableEq, Repr

/-- `ERR` with no flag set. -/
def ErrFlags.none : ErrFlags := { cfg := false, alg := false, cmd := false, busy := false }

/-- The state after reset (R37, R160), with no move scheduled. -/
def State.reset : State where
  digest := []
  digits := Config.digitsDefault
  alg := Config.algDefault
  offset := 0
  value := 0
  code := 0
  busy := false
  done := false
  err := ErrFlags.none
  rdata := Option.none
  rst := false
  schedule := []

end Sys2Proof.Machine
end

