-- ==== Sys2Proof/Machine/Flags.lean ====
section
/-! DEFINITION. The flags: the words `STATUS` and `ERR` are read as, what raising an error does to
`ERR`, and the write-one-to-clear. -/

namespace Sys2Proof.Machine

/-- The code of an error: its bit in `ERR` (R32, R140 to R143). -/
def Error.code : Error → Nat
  | .cfg => 0
  | .alg => 1
  | .cmd => 2
  | .busy => 3

/-- Set the sticky bit of one error; a bit that is set stays set (R144). -/
def ErrFlags.set (f : ErrFlags) : Error → ErrFlags
  | .cfg => { f with cfg := true }
  | .alg => { f with alg := true }
  | .cmd => { f with cmd := true }
  | .busy => { f with busy := true }

/-- Whether the bit of one error is set. -/
def ErrFlags.get (f : ErrFlags) : Error → Bool
  | .cfg => f.cfg
  | .alg => f.alg
  | .cmd => f.cmd
  | .busy => f.busy

/-- Write one to clear: a flag stays set unless its bit of the mask is 1 (R88). -/
def ErrFlags.clear (f : ErrFlags) (m : BitVec 4) : ErrFlags where
  cfg := f.cfg && !m.getLsbD 0
  alg := f.alg && !m.getLsbD 1
  cmd := f.cmd && !m.getLsbD 2
  busy := f.busy && !m.getLsbD 3

/-- `ERR` as read: `zext_32({ERR.BUSY, ERR.CMD, ERR.ALG, ERR.CFG})` (R87). -/
def errWord (f : ErrFlags) : Word :=
  (BitVec.ofBool f.busy ++ BitVec.ofBool f.cmd ++ BitVec.ofBool f.alg
    ++ BitVec.ofBool f.cfg).setWidth 32

/-- `STATUS` as read: `zext_32({STATUS.DONE, STATUS.BUSY})` (R85). -/
def statusWord (done busy : Bool) : Word :=
  (BitVec.ofBool done ++ BitVec.ofBool busy).setWidth 32

end Sys2Proof.Machine
end

