-- ==== Sys2Proof/Machine/Operands.lean ====
section
/-! DEFINITION. The operands: the two validity checks of a `CFG` write, the words the registers are
read as, the digest index and the word of a `DIGESTW` access, and the transaction word of an access by
byte address. -/

namespace Sys2Proof.Machine

/-- `valid_d` (R90). -/
def validDigits (d : BitVec 4) : Bool := d == 6 || d == 7 || d == 8

/-- `valid_a` (R90). -/
def validAlg (a : BitVec 2) : Bool := a == 0 || a == 1 || a == 2

/-- `CFG` as read: `zext_32({CFG.ALG, 0b0000, CFG.DIGITS})` (R89). -/
def cfgWord (alg : BitVec 2) (digits : BitVec 4) : Word :=
  (alg ++ 0b0000#4 ++ digits).setWidth 32

/-- The index of the first byte of `DIGESTW[k]` (R21). -/
def digestwIndex (k : BitVec 4) : Nat := 4 * k.toNat

/-- The 32-bit data of a `DIGESTW` write, `byte0` in bits 31:24 (R42, R63). -/
def digestwData (byte0 byte1 byte2 byte3 : Byte) : Word := byte0 ++ byte1 ++ byte2 ++ byte3

/-- The byte offset of an access from `BASE`, where it is one the port can express: 32 bits wide, and
at a multiple of 4 in `0x00..0x7C` (R47). -/
def accessOffset (a : Access) : Option Nat :=
  if Config.base ≤ a.addr ∧ a.addr - Config.base < Config.windowSize
      ∧ (a.addr - Config.base) % 4 = 0 ∧ a.bytes = 4 then
    some (a.addr - Config.base)
  else none

/-- The transaction word of a write to, or a read of, the slot at a byte offset; the port ignores the
write data of a read (R60, R61). -/
def wordAtOffset (write : Bool) (off : Nat) (data : Word) : TWord :=
  tWord write (BitVec.ofNat 5 (off / 4)) (if write then data else 0)

/-- The transaction an access makes at the port, if the port can express it (R47, R60). -/
def accessWord (a : Access) : Option TWord :=
  (accessOffset a).map fun off => wordAtOffset a.write off a.data

end Sys2Proof.Machine
end

