-- ==== Sys2Proof/Machine/Ops.lean ====
section
/-! DEFINITION. The shared operations: byte and multi-byte access to the digest buffer, the answer of a
read, raising an error and clearing the flags, the busy lock, and the state changes of the commands,
the completion and reset. -/

namespace Sys2Proof.Machine

/-! ### The digest buffer -/

/-- `DIGEST[i]`. An index that is not listed reads 0x00 (R37). -/
def Memory.read (m : Memory) (i : Nat) : Byte :=
  match m with
  | [] => 0
  | (j, b) :: rest => if i = j then b else Memory.read rest i

/-- `DIGEST[i] <- b`, keeping the canonical form: a zero byte is not listed. -/
def Memory.write (m : Memory) (i : Nat) (b : Byte) : Memory :=
  match m with
  | [] => if b = 0 then [] else [(i, b)]
  | (j, c) :: rest =>
    if i < j then (if b = 0 then (j, c) :: rest else (i, b) :: (j, c) :: rest)
    else if i = j then (if b = 0 then rest else (i, b) :: rest)
    else (j, c) :: Memory.write rest i b

/-- `MemRead(addr, n)`: the big-endian number of the `n` bytes from `addr` (R43). -/
def memRead (m : Memory) (addr : Nat) : Nat → Nat
  | 0 => 0
  | n + 1 => (m.read addr).toNat * 256 ^ n + memRead m (addr + 1) n

/-- `MemWrite(addr, n, v)`: store the number `v` big-endian in the `n` bytes from `addr` (R44). -/
def memWrite (m : Memory) (addr : Nat) (n v : Nat) : Memory :=
  match n with
  | 0 => m
  | k + 1 => memWrite (m.write addr (BitVec.ofNat 8 (v >>> (8 * k)))) (addr + 1) k v

/-- The 32-bit word of the four bytes from `addr`, `MemRead(addr, 4)` (R21, R99, R113). -/
def memReadWord (m : Memory) (addr : Nat) : Word := BitVec.ofNat 32 (memRead m addr 4)

/-! ### Errors -/

/-- `raise <Error>`: set the error's sticky bit and give the transaction no other effect. Nothing is
saved, no mode changes and control goes nowhere (R144). -/
def State.raise (s : State) (e : Error) : State := { s with err := s.err.set e }

/-- The way back from an error: clear the flags the mask selects. Nothing is re-enabled, because a flag
disables nothing (R88, R147). -/
def State.clearFlags (s : State) (m : BitVec 4) : State := { s with err := s.err.clear m }

/-- The busy lock in front of a write to `CMD`, `CFG` or `DIGESTW[k]`: while busy the write is
rejected, its data not examined (R80 case 3, R82). -/
def State.unlessBusy (s : State) (accepted : State) : State :=
  if s.busy then s.raise .busy else accepted

/-! ### Reads -/

/-- A read returns a word on `rdata` and changes nothing (R81). -/
def State.respond (s : State) (w : Word) : State := { s with rdata := some w }

/-! ### Writes and commands -/

/-- The acceptance step of TRUNC (R110). -/
def State.acceptTrunc (s : State) : State := { s with busy := true, done := false }

/-- The effect of CLEAR: the digest buffer and the results become zero (R132). -/
def State.scrub (s : State) : State :=
  { s with digest := [], offset := 0, value := 0, code := 0, done := false }

/-- An accepted write to `CFG` (R90). -/
def State.configure (s : State) (alg : BitVec 2) (digits : BitVec 4) : State :=
  { s with alg := alg, digits := digits, done := false }

/-- A refused write to `CFG`: each failing check raises its own error (R90, R146). -/
def State.refuseCfg (s : State) (alg : BitVec 2) (digits : BitVec 4) : State :=
  let s := if validDigits digits then s else s.raise .cfg
  if validAlg alg then s else s.raise .alg

/-- The validated write to `CFG` (R90). -/
def State.writeCfg (s : State) (alg : BitVec 2) (digits : BitVec 4) : State :=
  if validDigits digits && validAlg alg then s.configure alg digits else s.refuseCfg alg digits

/-- An accepted write to `DIGESTW[k]`: `MemWrite(4k, 4, data)` (R100). -/
def State.storeDigestw (s : State) (k : BitVec 4) (data : Word) : State :=
  { s with digest := memWrite s.digest (digestwIndex k) 4 data.toNat, done := false }

/-! ### The engine and reset -/

/-- The writes of the completion step (R117). -/
def State.finish (s : State) (offset : BitVec 4) (value : BitVec 31) (code : BitVec 27) : State :=
  { s with offset := offset, value := value, code := code, busy := false, done := true }

/-- The reset step: `rst` is asserted, and every piece of state takes its reset value; the moves to come
are the environment's and stay (R160, R161). -/
def State.assertReset (s : State) : State :=
  { State.reset with rst := true, schedule := s.schedule }

/-- `rst` is released (R162). -/
def State.releaseReset (s : State) : State := { s with rst := false }

/-- Take the next move off the schedule; `rdata` means nothing until a read answers (R60). -/
def State.dequeue (s : State) : State :=
  { s with schedule := s.schedule.tail, rdata := none }

end Sys2Proof.Machine
end

