-- ==== Sys2Proof/Machine/Datapath.lean ====
section
/-! DEFINITION. The truncation engine: the pure datapath functions of R112 to R116 and the completion
step of R117. -/

namespace Sys2Proof.Machine

/-- `dlen(a)`: the digest length in bytes of an algorithm code; code 3 has none (R24). -/
def dlen (a : BitVec 2) : Option Nat :=
  if a = 0 then some 20
  else if a = 1 then some 32
  else if a = 2 then some 64
  else none

/-- `Offset(D, L)`: the low 4 bits of the last digest byte, `MemRead(L-1, 1)[3:0]` (R112). -/
def offsetOf (d : Memory) (len : Nat) : BitVec 4 := BitVec.ofNat 4 (memRead d (len - 1) 1)

/-- `Window(D, o)`: the four bytes (`WINDOW_BYTES`, R12) at the offset as a big-endian number (R113). -/
def windowOf (d : Memory) (o : BitVec 4) : Word := memReadWord d o.toNat

/-- `Mask31(w)`: bit 31 of the window is discarded (R114). -/
def mask31 (w : Word) : BitVec 31 := w.extractLsb' 0 31

/-- `Reduce(v, n)`: the remainder of `v` by `10^n` (R115). -/
def reduce (v : BitVec 31) (n : BitVec 4) : BitVec 27 := BitVec.ofNat 27 (v.toNat % 10 ^ n.toNat)

/-- The three results of a truncation (R116). -/
structure Truncation where
  offset : BitVec 4
  value : BitVec 31
  code : BitVec 27
  deriving DecidableEq, Repr

/-- The truncation of a digest of `len` bytes to `n` digits (R116). -/
def truncateLen (d : Memory) (len : Nat) (n : BitVec 4) : Truncation :=
  let o := offsetOf d len
  let v := mask31 (windowOf d o)
  { offset := o, value := v, code := reduce v n }

/-- `Truncate(D, a, n)` (R116). It is defined for the legal algorithm codes and digit counts; `CFG`
never holds another (R35), and the two faults name what would be wrong (log entry 8). -/
def truncate (d : Memory) (a : BitVec 2) (n : BitVec 4) : Except Fault Truncation :=
  match dlen a with
  | none => .error .algorithmReserved
  | some len => if validDigits n then .ok (truncateLen d len n) else .error .digitsIllegal

/-- The completion step: the results of the present inputs, `BUSY` cleared and `DONE` set (R117). -/
def complete (s : State) : Host.Outcome State Fault Refusal :=
  match truncate s.digest s.alg s.digits with
  | .ok r => .next (s.finish r.offset r.value r.code)
  | .error f => .fault f

/-- The engine's turn: completion is enabled exactly when `BUSY` = 1, and the engine has no other move
(R8, R117; log entry 3). -/
def engineTurn (s : State) : Host.Outcome State Fault Refusal :=
  if s.busy then complete s else .next s

end Sys2Proof.Machine
end

