-- ==== Sys2Proof/Machine/Commands.lean ====
section
/-! DEFINITION. The family of writes to `CMD`: NOP, TRUNC, CLEAR and the illegal command words. -/

namespace Sys2Proof.Machine

/-- `NOP` (R130). -/
def execNop (s : State) : Host.Outcome State Fault Refusal := .next (s.unlessBusy s)

/-- `TRUNC`: the acceptance step; the completion is the engine's (R110). -/
def execTrunc (s : State) : Host.Outcome State Fault Refusal := .next (s.unlessBusy s.acceptTrunc)

/-- `CLEAR` (R132). -/
def execClear (s : State) : Host.Outcome State Fault Refusal := .next (s.unlessBusy s.scrub)

/-- `CMD.ILLEGAL`: raise IllegalCommand; the word is not stored (R33, R134). -/
def execCmdIllegal (_data : Word) (s : State) : Host.Outcome State Fault Refusal :=
  .next (s.unlessBusy (s.raise .cmd))

end Sys2Proof.Machine
end

