-- ==== Sys2Proof/Machine/Reads.lean ====
section
/-! DEFINITION. The family of register reads. Each answers in every state and changes nothing (R81). -/

namespace Sys2Proof.Machine

/-- `RD.CMD`: zero; `CMD` is not state (R33, R84). -/
def execRdCmd (s : State) : Host.Outcome State Fault Refusal := .next (s.respond 0)

/-- `RD.STATUS` (R85). -/
def execRdStatus (s : State) : Host.Outcome State Fault Refusal :=
  .next (s.respond (statusWord s.done s.busy))

/-- `RD.ERR`: reading clears nothing (R87). -/
def execRdErr (s : State) : Host.Outcome State Fault Refusal := .next (s.respond (errWord s.err))

/-- `RD.CFG` (R89). -/
def execRdCfg (s : State) : Host.Outcome State Fault Refusal :=
  .next (s.respond (cfgWord s.alg s.digits))

/-- `RD.OFFSET`: `zext_32(OFFSET)` (R91). -/
def execRdOffset (s : State) : Host.Outcome State Fault Refusal :=
  .next (s.respond (s.offset.setWidth 32))

/-- `RD.VALUE`: `zext_32(VALUE)` (R92). -/
def execRdValue (s : State) : Host.Outcome State Fault Refusal :=
  .next (s.respond (s.value.setWidth 32))

/-- `RD.CODE`: `zext_32(CODE)` (R93). -/
def execRdCode (s : State) : Host.Outcome State Fault Refusal :=
  .next (s.respond (s.code.setWidth 32))

/-- `RD.RSVD7`: zero (R94). -/
def execRdRsvd7 (s : State) : Host.Outcome State Fault Refusal := .next (s.respond 0)

/-- `RD.RSVD8_15`: zero (R94). -/
def execRdRsvd8to15 (_r : BitVec 3) (s : State) : Host.Outcome State Fault Refusal :=
  .next (s.respond 0)

/-- `RD.DIGESTW`: `MemRead(4k, 4)` (R99). -/
def execRdDigestw (k : BitVec 4) (s : State) : Host.Outcome State Fault Refusal :=
  .next (s.respond (memReadWord s.digest (digestwIndex k)))

end Sys2Proof.Machine
end

