-- ==== Sys2Proof/Machine/Writes.lean ====
section
/-! DEFINITION. The family of register writes: the ignored writes, `ERR`, `CFG` and the digest words. -/

namespace Sys2Proof.Machine

/-- `WR.STATUS`: ignored, busy or idle (R80 case 1, R86). -/
def execWrStatus (_data : Word) (s : State) : Host.Outcome State Fault Refusal := .next s

/-- `WR.ERR`: write one to clear, busy or idle; the upper bits are ignored (R80 case 2, R88). -/
def execWrErr (_ignored : BitVec 28) (m : BitVec 4) (s : State) :
    Host.Outcome State Fault Refusal :=
  .next (s.clearFlags m)

/-- `WR.CFG`: the validated write; the reserved bits are ignored (R90). -/
def execWrCfg (_ignoredHi : BitVec 22) (alg : BitVec 2) (_ignoredLo : BitVec 4)
    (digits : BitVec 4) (s : State) : Host.Outcome State Fault Refusal :=
  .next (s.unlessBusy (s.writeCfg alg digits))

/-- `WR.OFFSET`: ignored, busy or idle (R86). -/
def execWrOffset (_data : Word) (s : State) : Host.Outcome State Fault Refusal := .next s

/-- `WR.VALUE`: ignored, busy or idle (R86). -/
def execWrValue (_data : Word) (s : State) : Host.Outcome State Fault Refusal := .next s

/-- `WR.CODE`: ignored, busy or idle (R86). -/
def execWrCode (_data : Word) (s : State) : Host.Outcome State Fault Refusal := .next s

/-- `WR.RSVD7`: ignored, busy or idle (R95). -/
def execWrRsvd7 (_data : Word) (s : State) : Host.Outcome State Fault Refusal := .next s

/-- `WR.RSVD8_15`: ignored, busy or idle (R95). -/
def execWrRsvd8to15 (_r : BitVec 3) (_data : Word) (s : State) :
    Host.Outcome State Fault Refusal :=
  .next s

/-- `WR.DIGESTW`: `MemWrite(4k, 4, data)` and `DONE <- 0` (R100). -/
def execWrDigestw (k : BitVec 4) (byte0 byte1 byte2 byte3 : Byte) (s : State) :
    Host.Outcome State Fault Refusal :=
  .next (s.unlessBusy (s.storeDigestw k (digestwData byte0 byte1 byte2 byte3)))

end Sys2Proof.Machine
end

