-- ==== Sys2Proof/Machine/Dispatch.lean ====
section
/-! DEFINITION. One arm per instruction. -/

namespace Sys2Proof.Machine

def exec (i : Instr) (s : State) : Host.Outcome State Fault Refusal :=
  match i with
  | .nop => Sys2Proof.Machine.execNop s
  | .trunc => Sys2Proof.Machine.execTrunc s
  | .clear => Sys2Proof.Machine.execClear s
  | .cmdIllegal data => Sys2Proof.Machine.execCmdIllegal data s
  | .wrStatus data => Sys2Proof.Machine.execWrStatus data s
  | .wrErr ignored m => Sys2Proof.Machine.execWrErr ignored m s
  | .wrCfg hi alg lo digits => Sys2Proof.Machine.execWrCfg hi alg lo digits s
  | .wrOffset data => Sys2Proof.Machine.execWrOffset data s
  | .wrValue data => Sys2Proof.Machine.execWrValue data s
  | .wrCode data => Sys2Proof.Machine.execWrCode data s
  | .wrRsvd7 data => Sys2Proof.Machine.execWrRsvd7 data s
  | .wrRsvd8to15 r data => Sys2Proof.Machine.execWrRsvd8to15 r data s
  | .wrDigestw k b0 b1 b2 b3 => Sys2Proof.Machine.execWrDigestw k b0 b1 b2 b3 s
  | .rdCmd => Sys2Proof.Machine.execRdCmd s
  | .rdStatus => Sys2Proof.Machine.execRdStatus s
  | .rdErr => Sys2Proof.Machine.execRdErr s
  | .rdCfg => Sys2Proof.Machine.execRdCfg s
  | .rdOffset => Sys2Proof.Machine.execRdOffset s
  | .rdValue => Sys2Proof.Machine.execRdValue s
  | .rdCode => Sys2Proof.Machine.execRdCode s
  | .rdRsvd7 => Sys2Proof.Machine.execRdRsvd7 s
  | .rdRsvd8to15 r => Sys2Proof.Machine.execRdRsvd8to15 r s
  | .rdDigestw k => Sys2Proof.Machine.execRdDigestw k s

end Sys2Proof.Machine
end

