-- ==== Sys2Proof/Machine/Agents.lean ====
section
/-! DEFINITION. The agents of R8 and their moves: the host's transactions, the engine's turn and the
environment's reset; and which move is next. -/

namespace Sys2Proof.Machine

/-- The host presents the transaction of a word: its instruction runs. While `rst` is asserted the host
has no move (R162). -/
def hostTransaction (t : TWord) (s : State) : Host.Outcome State Fault Refusal :=
  if s.rst then .refused .transactionDuringReset
  else match decode t with
    | .ok i => exec i s
    | .error e => .refused (.undecodable e)

/-- The host aims an access at the window: a transaction where the port can express it, and refused
where it cannot (R47). -/
def hostAccess (a : Access) (s : State) : Host.Outcome State Fault Refusal :=
  match accessWord a with
  | some t => hostTransaction t s
  | none => .refused .inexpressibleAccess

/-- The environment drives `rst` (R160, R162). -/
def driveReset (asserted : Bool) (s : State) : Host.Outcome State Fault Refusal :=
  .next (if asserted then s.assertReset else s.releaseReset)

/-- One move. -/
def perform (e : Event) (s : State) : Host.Outcome State Fault Refusal :=
  match e with
  | .transaction t => hostTransaction t s
  | .access a => hostAccess a s
  | .engine => engineTurn s
  | .rst asserted => driveReset asserted s

/-- The next move: the first of the schedule; when nothing is scheduled the engine has its turn, so
that an operation in flight completes (R9; log entry 2). -/
def nextEvent (s : State) : Event :=
  match s.schedule with
  | [] => .engine
  | e :: _ => e

/-- Schedule a move before all others. -/
def State.present (s : State) (e : Event) : State := { s with schedule := e :: s.schedule }

end Sys2Proof.Machine
end

