-- ==== Sys2Proof/Machine/Step.lean ====
section
/-! DEFINITION. One step of the machine: the next agent's move. -/

namespace Sys2Proof.Machine

/-- One atomic step (R8, R48, R51): the next move of the schedule, on the state the earlier ones left. -/
def step (s : State) : Host.Outcome State Fault Refusal := perform (nextEvent s) s.dequeue

/-- `s` with the transaction of the word `w` as the next move, so that the next step runs it: the word
is put first on the schedule, and `rst` is released, because the machine serves no transaction under
reset (R162; log entry 1). -/
def State.withFetchWord (s : State) (nbits w : Nat) : State :=
  s.releaseReset.present (.transaction (BitVec.ofNat 38 (w % 2 ^ nbits)))

end Sys2Proof.Machine
end

