-- ==== Sys2Proof/Machine/Pseudo.lean ====
section
/-! DEFINITION. The programs of a driver (R73, R74): the pseudo-instructions and their expansions, the
driver sequence of R166, and the runs in which a driver issues one transaction a turn while the other
agents have their turns between. -/

namespace Sys2Proof.Machine

/-! ### The pseudo-instructions that are lists of transactions -/

/-- The algorithm names of the notation, with their codes (R24, R74). -/
inductive AlgName
  | sha1
  | sha256
  | sha512
  deriving DecidableEq, Repr

/-- The code of an algorithm name (R24). -/
def algCode : AlgName → BitVec 2
  | .sha1 => 0
  | .sha256 => 1
  | .sha512 => 2

/-- `SETCFG <digits>, <alg>`: `WR CFG, (<code> << 8) | <digits>` (R74). -/
def setcfg (digits : BitVec 4) (alg : AlgName) : List Instr := [.wrCfg 0 (algCode alg) 0 digits]

/-- `CLRERR`: `WR ERR, 0x0000000F` (R74). -/
def clrerr : List Instr := [.wrErr 0 0xF]

/-- The word writes of `LDDIG` from word `k` on: four bytes a word, in ascending order. -/
def lddigFrom (k : Nat) : List Byte → List Instr
  | b0 :: b1 :: b2 :: b3 :: rest =>
    .wrDigestw (BitVec.ofNat 4 k) b0 b1 b2 b3 :: lddigFrom (k + 1) rest
  | _ => []

/-- `LDDIG <hex string>`: one `WR DIGESTW[k]` for each four bytes of the digest (R74, R101). -/
def lddig (digest : List Byte) : List Instr := lddigFrom 0 digest

/-- The instructions of a list, one after another with no other agent's move between, stopping where one
does. -/
def execAll : List Instr → State → Host.Outcome State Fault Refusal
  | [], s => .next s
  | i :: rest, s =>
    match exec i s with
    | .next t => execAll rest t
    | .fault f => .fault f
    | .refused r => .refused r

/-! ### Programs with a `WAIT` in them -/

/-- A line of a driver's program: one transaction, or a `WAIT` (R73, R74). -/
inductive DriverOp
  /-- One transaction. -/
  | instr (i : Instr)
  /-- `WAIT`: `RD STATUS`, repeated until the value read has bit 0 (`BUSY`) = 0 (R74). -/
  | wait
  deriving DecidableEq, Repr

/-- The transaction a line issues when the driver has its turn. -/
def DriverOp.transaction : DriverOp → Instr
  | .instr i => i
  | .wait => .rdStatus

/-- Whether a line is done with, given the word its transaction read: a `WAIT` ends with the first read
that has bit 0 = 0, so it reads at least once (R74). -/
def DriverOp.ended (op : DriverOp) (answer : Option Word) : Bool :=
  match op, answer with
  | .instr _, _ => true
  | .wait, some w => !w.getLsbD 0
  | .wait, none => false

/-- `TRUNCATE <hex string>, <digits>, <alg>` (R74). -/
def truncateSequence (digest : List Byte) (digits : BitVec 4) (alg : AlgName) : List DriverOp :=
  (setcfg digits alg ++ lddig digest ++ [Instr.trunc]).map .instr ++ [.wait, .instr .rdCode]

/-- The sequence of R166 with all its steps: configure and read `ERR`, load, TRUNC, `WAIT`, read the code
and the intermediates, scrub. R166 says to check that bits 0 and 1 of `ERR` are clear and leaves open what a
driver does where one is set. DESIGN CHOICE (log entry 16): the read is issued, its value stands in the
trace, and the program goes on whatever it was. -/
def driverSequence (digest : List Byte) (digits : BitVec 4) (alg : AlgName) : List DriverOp :=
  (setcfg digits alg ++ [Instr.rdErr] ++ lddig digest ++ [Instr.trunc]).map .instr
    ++ [.wait, .instr .rdCode, .instr .rdOffset, .instr .rdValue, .instr .clear]

/-! ### Runs of a driver -/

/-- A driver at work on the machine: the lines it has still to issue, and the trace of R73, the slots it
has read with the values read, the first one first. It is the host's and no state of the DTE (R8; log
entry 15). -/
structure Driver where
  program : List DriverOp
  machine : State
  trace : List (Slot × Word)
  deriving DecidableEq, Repr

/-- A driver about to issue its first line. -/
def Driver.start (program : List DriverOp) (s : State) : Driver :=
  { program := program, machine := s, trace := [] }

/-- Whose turn it is: the driver's, to issue its next transaction; or another's (the engine, the reset,
another master), to make the move given. -/
inductive Turn
  | driver
  | other (e : Event)
  deriving DecidableEq, Repr

/-- The driver after the transaction of its line `op`, which left the machine in `t`. -/
def Driver.advance (d : Driver) (op : DriverOp) (rest : List DriverOp) (t : State) : Driver where
  program := if op.ended t.rdata then rest else op :: rest
  machine := t
  trace := d.trace ++ (t.rdata.map fun w => (op.transaction.slot, w)).toList

/-- A run of the driver goes on where the machine does, and stops as the machine stops. -/
def afterMove (o : Host.Outcome State Fault Refusal) (f : State → Driver) :
    Host.Outcome Driver Fault Refusal :=
  match o with
  | .next t => .next (f t)
  | .fault e => .fault e
  | .refused r => .refused r

/-- The driver's turn: a step of the machine, its move the transaction of the next line. A driver at the
end of its program has no move. -/
def issueNext (d : Driver) : Host.Outcome Driver Fault Refusal :=
  match d.program with
  | [] => .next d
  | op :: rest =>
    afterMove (step (d.machine.present (.transaction (encode op.transaction)))) (d.advance op rest)

/-- One turn in the run of a driver. -/
def takeTurn (turn : Turn) (d : Driver) : Host.Outcome Driver Fault Refusal :=
  match turn with
  | .driver => issueNext d
  | .other e => afterMove (step (d.machine.present e)) fun t => { d with machine := t }

/-- A run of a driver: the turns in order (R8, R11). -/
def drive : List Turn → Driver → Host.Outcome Driver Fault Refusal
  | [], d => .next d
  | turn :: turns, d =>
    match takeTurn turn d with
    | .next d' => drive turns d'
    | .fault f => .fault f
    | .refused r => .refused r

end Sys2Proof.Machine
end

