-- ==== Sys2Proof/Safety.lean ====
section
/-! DEFINITION. The terms claims are stated in: the invariant of the machine, the instruction a step
runs, the cause of each error, what a safe run is, and the source document's own truncation of a
byte sequence. -/

namespace Sys2Proof.Machine

/-- The invariant: the digest buffer is in canonical form, `CFG` holds legal values (R35), `DONE` means
that the results are those of the present inputs and that no operation is in flight (R31), the results
are in range (R36), and under `rst` everything is at its reset value (R160). -/
structure Inv (s : State) : Prop where
  digest_wf : s.digest.wf
  digits_legal : validDigits s.digits = true
  alg_legal : validAlg s.alg = true
  done_idle : s.done = true → s.busy = false
  done_results : s.done = true →
    truncate s.digest s.alg s.digits
      = .ok { offset := s.offset, value := s.value, code := s.code }
  code_max : s.code.toNat ≤ 99999999
  code_le_value : s.code.toNat ≤ s.value.toNat
  under_reset : s.rst = true →
    s = { State.reset with rst := true, rdata := s.rdata, schedule := s.schedule }

/-- A run of `k` steps from `s` is safe: it ends in no fault. -/
def SafeRun (s : State) (k : Nat) : Prop := ∀ f, core.run k s ≠ .fault f

/-- The word of the transaction a move makes at the port, if the move is the host's and the port can
express it. -/
def transactionOf : Event → Option TWord
  | .transaction t => some t
  | .access a => accessWord a
  | .engine => none
  | .rst _ => none

/-- The instruction the next step runs, if the next move is a host transaction that decodes. -/
def nextInstr (s : State) : Option Instr :=
  (transactionOf (nextEvent s)).bind fun t => (decode t).toOption

/-- A slot whose writes the busy period locks: `CMD`, `CFG` or a `DIGESTW[k]` (R80, R82). -/
def lockedSlot : Slot → Bool
  | .cmd => true
  | .cfg => true
  | .digestw _ => true
  | .status => false
  | .err => false
  | .offset => false
  | .value => false
  | .code => false
  | .rsvd7 => false
  | .rsvd8to15 _ => false

/-- The cause of each error (R140 to R143). -/
def Causes (e : Error) (i : Instr) (s : State) : Prop :=
  match e with
  | .cfg => s.busy = false ∧ ∃ hi a lo d, i = .wrCfg hi a lo d ∧ d ≠ 6 ∧ d ≠ 7 ∧ d ≠ 8
  | .alg => s.busy = false ∧ ∃ hi a lo d, i = .wrCfg hi a lo d ∧ a = 3
  | .cmd => s.busy = false ∧ ∃ data, i = .cmdIllegal data
  | .busy => s.busy = true ∧ i.isWrite = true ∧ lockedSlot i.slot = true

/-- The accepted transactions that change an input or the meaning of the results, and so clear `DONE`
(R30). -/
def ClearsDone (i : Instr) (s : State) : Prop :=
  s.busy = false ∧
    (i = .trunc ∨ i = .clear ∨ (∃ k b0 b1 b2 b3, i = .wrDigestw k b0 b1 b2 b3)
      ∨ ∃ hi a lo d, i = .wrCfg hi a lo d ∧ (d = 6 ∨ d = 7 ∨ d = 8) ∧ a ≠ 3)

/-! ### The source document's truncation, on a byte sequence and natural numbers (R2, R118) -/

/-- "`offset = digest[len(digest)-1] & 0x0F`". -/
def sourceOffset (g : List Byte) : Nat := (g.getD (g.length - 1) 0).toNat &&& 0x0F

/-- "Take 4 bytes `digest[offset..offset+4]` as a big-endian 32-bit unsigned value". -/
def sourceWindow (g : List Byte) : Nat :=
  ((g.drop (sourceOffset g)).take 4).foldl (fun acc b => 256 * acc + b.toNat) 0

/-- "`value & 0x7FFFFFFF`". -/
def sourceValue (g : List Byte) : Nat := sourceWindow g &&& 0x7FFFFFFF

/-- "`truncate(digest: bytes, digits: int) -> int`": "`code = value mod 10^digits`". -/
def sourceTruncate (g : List Byte) (digits : Nat) : Nat := sourceValue g % 10 ^ digits

end Sys2Proof.Machine
end

