-- ==== Sys2Proof/Certificates/Slice0/Obligations.lean ====
section
/-! DEFINITION. The statements for the provers, from the numbered rules of spec/. -/

open Sys2Proof Sys2Proof.Machine

/-! ### Encoding -/

/-- Words the spec writes out (R66 and the traces of 95_test_vectors.md) decode to the instructions they
stand for. The last clause, that a read word with data is refused, is the model's: it is deduced from R61,
which makes the data of a read all zero (log entry 7). -/
def Obligations.SpecWordsDecode : Prop :=
  decode 0x2000000000 = .ok .nop ∧
  decode 0x2000000001 = .ok .trunc ∧
  decode 0x2000000002 = .ok .clear ∧
  decode 0x2080000001 = .ok (.cmdIllegal 0x80000001) ∧
  decode 0x22FFFFFFF0 = .ok (.wrErr 0xFFFFFFF 0) ∧
  decode 0x2300000309 = .ok (.wrCfg 0 3 0 9) ∧
  decode 0x2FFFFFFFFF = .ok (.wrRsvd8to15 7 0xFFFFFFFF) ∧
  decode 0x30CC93CF18 = .ok (.wrDigestw 0 0xCC 0x93 0xCF 0x18) ∧
  decode 0x0100000000 = .ok .rdStatus ∧
  decode 0x0F00000000 = .ok (.rdRsvd8to15 7) ∧
  decode 0x1F00000000 = .ok (.rdDigestw 15) ∧
  decode 0x0100000001 = .error .readDataNotZero

/-- Decoding the encoding of a well-formed instruction gives the instruction back, every operand at
every value (R61, R63, R66). -/
def Obligations.DecodeOfEncodeIsIdentity : Prop :=
  ∀ i : Instr, i.wellFormed = true → decode (encode i) = .ok i

/-- A word that decodes is the encoding of the well-formed instruction it decodes to. -/
def Obligations.EncodeOfDecodeIsIdentity : Prop :=
  ∀ (t : TWord) (i : Instr), decode t = .ok i → i.wellFormed = true ∧ encode i = t

/-- The decoder gives every word the mnemonic of the first row of the opcode table that matches it, and
refuses exactly the words no row matches (R66, opcode_table.json). R66 does not say what becomes of a word
that no row matches: that it is refused is the model's, deduced from R61 (log entry 7). -/
def Obligations.DecodeFollowsFirstMatchingRow : Prop :=
  ∀ t : TWord, (decode t).toOption.map Instr.mnemonic = tableMnemonic t

/-- R61: the word of a write and of a read at a byte offset, as a number and by its fields. -/
def Obligations.TransactionWordFormula : Prop :=
  ∀ (off : Nat) (data : Word), off % 4 = 0 → off ≤ 0x7C →
    (wordAtOffset true off data).toNat
        = 0x2000000000 + (off / 4) * 0x100000000 + data.toNat ∧
    (wordAtOffset false off data).toNat = (off / 4) * 0x100000000 ∧
    ∀ we : Bool,
      (wordAtOffset we off data).getLsbD 37 = we ∧
      ((wordAtOffset we off data).extractLsb' 32 5).toNat = off / 4 ∧
      (wordAtOffset we off data).extractLsb' 0 32 = if we then data else 0

/-- R47: an access is a transaction of the port exactly when it is 32 bits wide at a multiple of 4 in
`0x00..0x7C` from `BASE`; any other is refused. -/
def Obligations.OnlyWholeAlignedWordsAreServed : Prop :=
  ∀ (s : State) (a : Access), nextEvent s = .access a →
    (∀ off, a.addr = Config.base + off → off % 4 = 0 → off ≤ 0x7C → a.bytes = 4 →
      step s = hostTransaction (wordAtOffset a.write off a.data) s.dequeue) ∧
    ((∀ off, a.addr = Config.base + off → off % 4 = 0 → off ≤ 0x7C → a.bytes ≠ 4) →
      step s = .refused .inexpressibleAccess)

/-! ### Reads -/

/-- R85: `RD STATUS` answers `BUSY` in bit 0, `DONE` in bit 1, zero above, in every state, and nothing
changes; where the invariant holds the word is 0, 1 or 2. -/
def Obligations.StatusReadGivesBusyAndDone : Prop :=
  ∀ s : State, ∃ w, exec .rdStatus s = .next { s with rdata := some w } ∧
    w.getLsbD 0 = s.busy ∧ w.getLsbD 1 = s.done ∧ (∀ j, 2 ≤ j → w.getLsbD j = false) ∧
    (Inv s → w = 0x0 ∨ w = 0x1 ∨ w = 0x2)

/-- R87: `RD ERR` answers the four flags, each in its bit, zero above; nothing is cleared. -/
def Obligations.ErrReadGivesTheFlags : Prop :=
  ∀ s : State, ∃ w, exec .rdErr s = .next { s with rdata := some w } ∧
    w.getLsbD 0 = s.err.cfg ∧ w.getLsbD 1 = s.err.alg ∧ w.getLsbD 2 = s.err.cmd ∧
    w.getLsbD 3 = s.err.busy ∧ ∀ j, 4 ≤ j → w.getLsbD j = false

/-- R89: `RD CFG` answers `DIGITS` in bits 3:0, `ALG` in bits 9:8, zero elsewhere, in every state, and
nothing changes; where the invariant holds the word is one of the nine legal ones. -/
def Obligations.CfgReadGivesDigitsAndAlg : Prop :=
  ∀ s : State, ∃ w, exec .rdCfg s = .next { s with rdata := some w } ∧
    w.extractLsb' 0 4 = s.digits ∧ w.extractLsb' 8 2 = s.alg ∧
    w.extractLsb' 4 4 = 0 ∧ w.extractLsb' 10 22 = 0 ∧
    (Inv s → w ∈ [0x006#32, 0x007#32, 0x008#32, 0x106#32, 0x107#32, 0x108#32, 0x206#32,
      0x207#32, 0x208#32])

/-- R91 to R93: the three result registers read zero-extended, in every state, and nothing changes; where
the invariant holds and `DONE` is set, the code read is below `10^DIGITS`. -/
def Obligations.ResultReadsAreZeroExtended : Prop :=
  ∀ s : State,
    (∃ w, exec .rdOffset s = .next { s with rdata := some w } ∧ w.toNat = s.offset.toNat) ∧
    (∃ w, exec .rdValue s = .next { s with rdata := some w } ∧ w.toNat = s.value.toNat ∧
      w.getLsbD 31 = false) ∧
    (∃ w, exec .rdCode s = .next { s with rdata := some w } ∧ w.toNat = s.code.toNat ∧
      (∀ j, 27 ≤ j → w.getLsbD j = false) ∧
      (Inv s → s.done = true → w.toNat < 10 ^ s.digits.toNat))

/-- R84 and R94: `CMD` and the reserved slots read zero, in every state, with no side effect. -/
def Obligations.CmdAndReservedReadZero : Prop :=
  ∀ (s : State) (r : BitVec 3),
    exec .rdCmd s = .next { s with rdata := some 0x00000000 } ∧
    exec .rdRsvd7 s = .next { s with rdata := some 0x00000000 } ∧
    exec (.rdRsvd8to15 r) s = .next { s with rdata := some 0x00000000 }

/-- R99: `RD DIGESTW[k]` answers `{DIGEST[4k], DIGEST[4k+1], DIGEST[4k+2], DIGEST[4k+3]}`, busy or idle,
and nothing changes. -/
def Obligations.DigestWordReadIsBigEndian : Prop :=
  ∀ (s : State) (k : BitVec 4), ∃ w,
    exec (.rdDigestw k) s = .next { s with rdata := some w } ∧
    w.extractLsb' 24 8 = s.digest.read (4 * k.toNat) ∧
    w.extractLsb' 16 8 = s.digest.read (4 * k.toNat + 1) ∧
    w.extractLsb' 8 8 = s.digest.read (4 * k.toNat + 2) ∧
    w.extractLsb' 0 8 = s.digest.read (4 * k.toNat + 3)

/-- Every read completes in every state, busy or idle, and changes nothing but the answer (R49, R81). -/
def Obligations.ReadsChangeNothing : Prop :=
  ∀ (i : Instr) (s : State), i.isWrite = false →
    ∃ w, exec i s = .next { s with rdata := some w }

/-! ### Writes -/

/-- R86 and R95: writes to the read-only registers and the reserved slots are ignored, for every data, in
every state. -/
def Obligations.ReadOnlyAndReservedIgnoreWrites : Prop :=
  ∀ (s : State) (data : Word) (r : BitVec 3),
    exec (.wrStatus data) s = .next s ∧
    exec (.wrOffset data) s = .next s ∧
    exec (.wrValue data) s = .next s ∧
    exec (.wrCode data) s = .next s ∧
    exec (.wrRsvd7 data) s = .next s ∧
    exec (.wrRsvd8to15 r data) s = .next s

/-- R82: a write to `CMD`, `CFG` or a `DIGESTW[k]` while busy sets `ERR.BUSY` and does nothing else,
whatever its data. -/
def Obligations.WriteWhileBusyOnlySetsErrBusy : Prop :=
  ∀ (i : Instr) (s : State), s.busy = true → i.isWrite = true →
    (i.slot = .cmd ∨ i.slot = .cfg ∨ ∃ k, i.slot = .digestw k) →
    exec i s = .next { s with err := { s.err with busy := true } }

/-- R83, with the effects of R130, R110, R132 and R134: what the 32-bit word written to `CMD` does at
idle. -/
def Obligations.CommandWordAtIdle : Prop :=
  ∀ (s : State) (data : Word), s.rst = false → s.busy = false →
    (data = 0x00000000 → hostTransaction (tWord true 0 data) s = .next s) ∧
    (data = 0x00000001 →
      hostTransaction (tWord true 0 data) s = .next { s with busy := true, done := false }) ∧
    (data = 0x00000002 →
      hostTransaction (tWord true 0 data) s = exec .clear s) ∧
    (data ≠ 0x00000000 → data ≠ 0x00000001 → data ≠ 0x00000002 →
      hostTransaction (tWord true 0 data) s
        = .next { s with err := { s.err with cmd := true } })

/-- R130: `NOP` at idle changes nothing; while busy it is rejected and sets `ERR.BUSY`. -/
def Obligations.NopKeepsEverything : Prop :=
  ∀ s : State,
    (s.busy = false → exec .nop s = .next s) ∧
    (s.busy = true → exec .nop s = .next { s with err := { s.err with busy := true } })

/-- R134: an illegal command at idle sets `ERR.CMD` and changes nothing else; while busy it sets `ERR.BUSY`
and not `ERR.CMD`. -/
def Obligations.IllegalCommandOnlySetsErrCmd : Prop :=
  ∀ (s : State) (data : Word), (Instr.cmdIllegal data).wellFormed = true →
    (s.busy = false →
      exec (.cmdIllegal data) s = .next { s with err := { s.err with cmd := true } }) ∧
    (s.busy = true →
      exec (.cmdIllegal data) s = .next { s with err := { s.err with busy := true } })

/-- R88: a write to `ERR` clears the flags its mask selects, busy or idle, sets none, ignores bits 31:4
and changes nothing else; the last clause says the same of the word `ERR` is read as. -/
def Obligations.ErrWriteClearsSelectedFlags : Prop :=
  ∀ (s : State) (ignored : BitVec 28) (m : BitVec 4), ∃ t,
    exec (.wrErr ignored m) s = .next t ∧ t = { s with err := t.err } ∧
    t.err.cfg = (s.err.cfg && !m.getLsbD 0) ∧
    t.err.alg = (s.err.alg && !m.getLsbD 1) ∧
    t.err.cmd = (s.err.cmd && !m.getLsbD 2) ∧
    t.err.busy = (s.err.busy && !m.getLsbD 3) ∧
    errWord t.err = errWord s.err &&& ~~~(m.setWidth 32)

/-- R90: the validated write at idle. Valid digits and a valid algorithm are stored and clear `DONE`;
otherwise each failing check sets its own flag, both when both fail. Nothing else changes, and the
reserved bits are ignored. -/
def Obligations.CfgWriteIsValidated : Prop :=
  ∀ (s : State) (hi : BitVec 22) (a : BitVec 2) (lo d : BitVec 4), s.busy = false →
    ((d = 6 ∨ d = 7 ∨ d = 8) → (a = 0 ∨ a = 1 ∨ a = 2) →
      exec (.wrCfg hi a lo d) s = .next { s with digits := d, alg := a, done := false }) ∧
    (((d ≠ 6 ∧ d ≠ 7 ∧ d ≠ 8) ∨ a = 3) →
      ∃ t, exec (.wrCfg hi a lo d) s = .next t ∧ t = { s with err := t.err } ∧
        (t.err.cfg = true ↔ s.err.cfg = true ∨ (d ≠ 6 ∧ d ≠ 7 ∧ d ≠ 8)) ∧
        (t.err.alg = true ↔ s.err.alg = true ∨ a = 3) ∧
        t.err.cmd = s.err.cmd ∧ t.err.busy = s.err.busy)

/-- R100: at idle, a write to `DIGESTW[k]` stores its four bytes at `4k` to `4k+3` in index order, clears
`DONE`, leaves every other byte and every other piece of state alone, and keeps the buffer's form. -/
def Obligations.DigestWordWriteStoresFourBytes : Prop :=
  ∀ (s : State) (k : BitVec 4) (b0 b1 b2 b3 : Byte), s.busy = false → s.digest.wf →
    ∃ t, exec (.wrDigestw k b0 b1 b2 b3) s = .next t ∧
      t = { s with digest := t.digest, done := false } ∧ t.digest.wf ∧
      t.digest.read (digestwIndex k) = b0 ∧
      t.digest.read (digestwIndex k + 1) = b1 ∧
      t.digest.read (digestwIndex k + 2) = b2 ∧
      t.digest.read (digestwIndex k + 3) = b3 ∧
      digestwIndex k = 4 * k.toNat ∧
      ∀ i, i < digestwIndex k ∨ digestwIndex k + 4 ≤ i → t.digest.read i = s.digest.read i

/-- A digest word reads back as it was written, and no other word changes (R21, R45, R99, R100). -/
def Obligations.DigestWordReadsBack : Prop :=
  ∀ (s t : State) (k k' : BitVec 4) (b0 b1 b2 b3 : Byte), s.busy = false → s.digest.wf →
    exec (.wrDigestw k b0 b1 b2 b3) s = .next t →
    exec (.rdDigestw k) t = .next { t with rdata := some (b0 ++ b1 ++ b2 ++ b3) } ∧
    (k' ≠ k → ∀ w, exec (.rdDigestw k') s = .next { s with rdata := some w } →
      exec (.rdDigestw k') t = .next { t with rdata := some w })

/-- Loading a digest (R101, the expansion of `LDDIG` in R74): from an idle state the word writes of a
digest of 20, 32 or 64 bytes leave byte `i` of the digest at index `i`, keep every byte beyond it, clear
`DONE`, and change nothing else. -/
def Obligations.LoadedDigestStandsInTheBuffer : Prop :=
  ∀ (s : State) (g : List Byte), s.busy = false → s.digest.wf →
    (g.length = 20 ∨ g.length = 32 ∨ g.length = 64) →
    (lddig g).length = g.length / 4 ∧
    ∃ t, execAll (lddig g) s = .next t ∧ t = { s with digest := t.digest, done := false } ∧
      t.digest.wf ∧ (∀ i, i < g.length → t.digest.read i = g.getD i 0) ∧
      ∀ i, g.length ≤ i → t.digest.read i = s.digest.read i

/-! ### The digest buffer -/

/-- R43: `MemRead(addr, n)` is the sum over `j` of `DIGEST[addr+j] * 256^(n-1-j)`. -/
def Obligations.MemReadIsTheBigEndianSum : Prop :=
  ∀ (m : Memory) (addr n : Nat), 1 ≤ n → n ≤ 4 → addr + n - 1 ≤ 63 →
    memRead m addr n
        = ((List.range n).map fun j => (m.read (addr + j)).toNat * 256 ^ (n - 1 - j)).sum ∧
    memRead m addr n < 2 ^ (8 * n)

/-- R44: `MemWrite(addr, n, v)` stores the bytes of `v` big-endian and changes no other byte. -/
def Obligations.MemWriteStoresBigEndianBytes : Prop :=
  ∀ (m : Memory) (addr n v : Nat), m.wf → 1 ≤ n → n ≤ 4 → addr + n - 1 ≤ 63 → v < 256 ^ n →
    (∀ j, j < n →
      ((memWrite m addr n v).read (addr + j)).toNat = (v >>> (8 * (n - 1 - j))) &&& 0xFF) ∧
    (∀ i, i < addr ∨ addr + n ≤ i → (memWrite m addr n v).read i = m.read i) ∧
    (memWrite m addr n v).wf

/-- Two digest buffers in canonical form that read alike are equal (log entry 9). -/
def Obligations.EqualBuffersAreEqualData : Prop :=
  ∀ m m' : Memory, m.wf → m'.wf → (∀ i, i < 64 → m.read i = m'.read i) → m = m'

/-- R46: the window as a function of the digest words: the word `DIGESTW[offset/4]` where the offset is
a multiple of 4, and the joining of it and the next one where it is not. -/
def Obligations.WindowStraddlesTwoWords : Prop :=
  ∀ (d : Memory) (o : BitVec 4),
    (o.toNat % 4 = 0 → windowOf d o = memReadWord d (4 * (o.toNat / 4))) ∧
    (o.toNat % 4 ≠ 0 →
      windowOf d o = ((memReadWord d (4 * (o.toNat / 4))) ++
        (memReadWord d (4 * (o.toNat / 4 + 1)))).extractLsb' (32 - 8 * (o.toNat % 4)) 32 ∧
      o.toNat / 4 + 1 ≤ 4)

/-! ### TRUNC -/

/-- R110: TRUNC at idle sets `BUSY`, clears `DONE` and changes nothing else, so that `STATUS` reads 1;
while busy it is rejected and sets `ERR.BUSY`. -/
def Obligations.TruncIsAcceptedAtIdle : Prop :=
  ∀ s : State,
    (s.busy = false → ∃ t, exec .trunc s = .next t ∧ t = { s with busy := true, done := false } ∧
      exec .rdStatus t = .next { t with rdata := some 0x00000001 }) ∧
    (s.busy = true → exec .trunc s = .next { s with err := { s.err with busy := true } })

/-- R112 to R115 on natural numbers: the offset is the low nibble of the last digest byte, the window its
four bytes big-endian, none above index 18, the value the window without bit 31, the code the value
modulo `10^n`. -/
def Obligations.DatapathComputesTheSourceSteps : Prop :=
  (∀ (d : Memory) (len : Nat), (offsetOf d len).toNat = (d.read (len - 1)).toNat % 16) ∧
  (∀ (d : Memory) (o : BitVec 4), o.toNat + 3 ≤ 18 ∧ (windowOf d o).toNat =
    (d.read o.toNat).toNat * 2 ^ 24 + (d.read (o.toNat + 1)).toNat * 2 ^ 16
      + (d.read (o.toNat + 2)).toNat * 2 ^ 8 + (d.read (o.toNat + 3)).toNat) ∧
  (∀ w : Word, (mask31 w).toNat = (w &&& 0x7FFFFFFF).toNat) ∧
  (∀ (v : BitVec 31) (n : BitVec 4), (n = 6 ∨ n = 7 ∨ n = 8) →
    (reduce v n).toNat = v.toNat % 10 ^ n.toNat ∧ (reduce v n).toNat < 10 ^ n.toNat)

/-- The laws R121 lists: reductions compose, reduction does not exceed its argument, and the mask is
idempotent and takes away bit 31 and nothing else. -/
def Obligations.ReductionAndMaskLaws : Prop :=
  ∀ (v : BitVec 31) (w : Word),
    reduce v 6 = reduce ((reduce v 8).setWidth 31) 6 ∧
    reduce v 6 = reduce ((reduce v 7).setWidth 31) 6 ∧
    reduce v 7 = reduce ((reduce v 8).setWidth 31) 7 ∧
    (∀ n : BitVec 4, (n = 6 ∨ n = 7 ∨ n = 8) → (reduce v n).toNat ≤ v.toNat) ∧
    mask31 ((mask31 w).setWidth 32) = mask31 w ∧
    (mask31 w).toNat = w.toNat - 2 ^ 31 * (w.getLsbD 31).toNat

/-- R117: the completion step, in every busy state whose configuration is legal: it writes `OFFSET`,
`VALUE`, `CODE`, `BUSY` and `DONE`, with the truncation of the present inputs, and nothing else. -/
def Obligations.CompletionWritesTheResults : Prop :=
  ∀ s : State, s.busy = true → validDigits s.digits = true → validAlg s.alg = true →
    ∃ r, truncate s.digest s.alg s.digits = .ok r ∧
      engineTurn s = .next { s with
        offset := r.offset, value := r.value, code := r.code, busy := false, done := true }

/-- While idle the engine has no move: its turn changes nothing. That a turn given to an idle engine passes
is the model's choice (log entry 3); that no completion happens is R8's and R117's. -/
def Obligations.IdleEngineChangesNothing : Prop :=
  ∀ s : State, s.busy = false → engineTurn s = .next s

/-- R118: with the digest `g` in the buffer and its length and digit count configured, an accepted TRUNC
and its completion leave the source document's `truncate(g, n)` in `CODE`, below `10^n`, its offset in
`OFFSET` and its masked value in `VALUE`. -/
def Obligations.TruncComputesTheSourceTruncate : Prop :=
  ∀ (s : State) (g : List Byte) (n : Nat), s.busy = false →
    (g.length = 20 ∨ g.length = 32 ∨ g.length = 64) → (n = 6 ∨ n = 7 ∨ n = 8) →
    (∀ i, i < g.length → s.digest.read i = g.getD i 0) →
    dlen s.alg = some g.length → s.digits.toNat = n →
    ∃ t u, exec .trunc s = .next t ∧ t.busy = true ∧ engineTurn t = .next u ∧
      u.busy = false ∧ u.done = true ∧
      u.code.toNat = sourceTruncate g n ∧ u.code.toNat < 10 ^ n ∧
      u.offset.toNat = sourceOffset g ∧ u.value.toNat = sourceValue g ∧
      u = { s with
        offset := u.offset, value := u.value, code := u.code, busy := false, done := true }

/-- R119: two buffers with the same low nibble in the last digest byte and the same four window bytes,
but for bit 7 of the first, have the same truncation; so have two buffers that agree on bytes 0 to 19,
31 and 63, under every configuration. -/
def Obligations.OnlyTheSelectedBytesMatter : Prop :=
  ∀ (d d' : Memory) (a : BitVec 2) (n : BitVec 4),
    (∀ len, dlen a = some len →
      (d.read (len - 1)).extractLsb' 0 4 = (d'.read (len - 1)).extractLsb' 0 4 →
      (d.read (offsetOf d len).toNat).extractLsb' 0 7
        = (d'.read (offsetOf d len).toNat).extractLsb' 0 7 →
      (∀ j, 1 ≤ j → j ≤ 3 →
        d.read ((offsetOf d len).toNat + j) = d'.read ((offsetOf d len).toNat + j)) →
      truncate d a n = truncate d' a n) ∧
    ((∀ i, i ≤ 19 ∨ i = 31 ∨ i = 63 → d.read i = d'.read i) → truncate d a n = truncate d' a n)

/-- R122: two operations with the same digest bytes below the digest length and the same configuration
give the same three results, whatever else the two states hold. -/
def Obligations.TruncationIsRepeatable : Prop :=
  ∀ s s' t t' : State, s.busy = true → s'.busy = true →
    s.alg = s'.alg → s.digits = s'.digits →
    (∀ len, dlen s.alg = some len → ∀ i, i < len → s.digest.read i = s'.digest.read i) →
    engineTurn s = .next t → engineTurn s' = .next t' →
    t.offset = t'.offset ∧ t.value = t'.value ∧ t.code = t'.code

/-- R132: CLEAR at idle zeroes all 64 digest bytes and the results and clears `DONE`, so that the state
differs from the reset state only in `CFG` and `ERR` (and in the model's own fields), and a truncation of
the buffer is all zero; while busy it is rejected with `ERR.BUSY` and nothing is cleared. -/
def Obligations.ClearScrubsDigestAndResults : Prop :=
  ∀ s : State,
    (s.busy = false → ∃ t, exec .clear s = .next t ∧
      (∀ i, i < 64 → t.digest.read i = 0x00) ∧ t.digest.wf ∧
      t = { State.reset with
        digits := s.digits, alg := s.alg, err := s.err,
        rdata := s.rdata, rst := s.rst, schedule := s.schedule } ∧
      t.offset = 0 ∧ t.value = 0 ∧ t.code = 0 ∧ t.done = false ∧ t.busy = false ∧
      (validDigits s.digits = true → validAlg s.alg = true →
        truncate t.digest t.alg t.digits = .ok ⟨0, 0, 0⟩)) ∧
    (s.busy = true → exec .clear s = .next { s with err := { s.err with busy := true } })

/-! ### Errors -/

/-- R140 to R143: an instruction other than a write to `ERR` completes with exactly those flags set that
were set before or whose error it causes; where it causes one, nothing but `ERR` changes; and each flag
is read in the bit of its code. -/
def Obligations.ErrorsFollowTheirCauses : Prop :=
  ∀ (i : Instr) (s : State), i.wellFormed = true → (∀ ignored m, i ≠ .wrErr ignored m) →
    ∃ t, exec i s = .next t ∧
      (∀ e : Error, t.err.get e = true ↔ s.err.get e = true ∨ Causes e i s) ∧
      (∀ e : Error, Causes e i s → t = { s with err := t.err }) ∧
      ∀ e : Error, (errWord t.err).getLsbD e.code = t.err.get e

/-- A step sets a flag only where it runs a host write that causes that error, and clears one only where
it runs a write to `ERR` that selects it or is the reset; no read and no completion changes a flag (R32,
R145, R147). -/
def Obligations.FlagsAreStickyAndSetByHostWrites : Prop :=
  ∀ (s t : State) (e : Error), step s = .next t →
    (s.err.get e = false → t.err.get e = true →
      ∃ i, nextInstr s = some i ∧ i.isWrite = true ∧ Causes e i s) ∧
    (s.err.get e = true → t.err.get e = false →
      (∃ ignored m, nextInstr s = some (.wrErr ignored m) ∧ m.getLsbD e.code = true) ∨
        nextEvent s = .rst true)

/-- With any flags set, an instruction and the completion behave as with any others: the two next states
agree on everything but `ERR`, and on the answer unless it is that of a read of `ERR` (R148). -/
def Obligations.FlagsNeverGateOperation : Prop :=
  ∀ (s : State) (f : ErrFlags),
    (∀ i : Instr, ∃ t t', exec i s = .next t ∧ exec i { s with err := f } = .next t' ∧
      t' = { t with err := t'.err, rdata := t'.rdata } ∧
      (i ≠ .rdErr → t'.rdata = t.rdata)) ∧
    (∀ t, engineTurn s = .next t → engineTurn { s with err := f } = .next { t with err := f })

/-! ### The flags of STATUS, and what moves can change -/

/-- R30: what clears and what keeps `DONE`. An instruction clears it exactly when it is an accepted TRUNC,
CLEAR, `DIGESTW` write or `CFG` write; a completion sets it; reset clears it. -/
def Obligations.DoneLifetime : Prop :=
  (∀ (i : Instr) (s t : State), exec i s = .next t →
    (ClearsDone i s → t.done = false) ∧ (¬ ClearsDone i s → t.done = s.done)) ∧
  (∀ s t : State, engineTurn s = .next t →
    (s.busy = true → t.done = true) ∧ (s.busy = false → t.done = s.done)) ∧
  (∀ s t : State, step s = .next t → nextEvent s = .rst true → t.done = false)

/-- R28: what sets and clears `BUSY`, and what it locks. An instruction sets it exactly when it is an
accepted TRUNC and never clears it; a completion clears it; reset clears it; and while it is set no
instruction changes the digest or the configuration or starts an operation. -/
def Obligations.BusyLifetime : Prop :=
  (∀ (i : Instr) (s t : State), exec i s = .next t →
    (t.busy = true ↔ s.busy = true ∨ i = .trunc) ∧
    (s.busy = true → t.digest = s.digest ∧ t.digits = s.digits ∧ t.alg = s.alg ∧
      t.done = s.done)) ∧
  (∀ s t : State, engineTurn s = .next t → t.busy = false) ∧
  (∀ s t : State, step s = .next t → nextEvent s = .rst true → t.busy = false)

/-- The inputs are locked from acceptance to completion (R28, R34, R117): a step of a busy machine either
is the reset, or keeps the digest and the configuration, and then the results too unless it is the
completion, which ends the busy period. -/
def Obligations.BusyPeriodLocksTheInputs : Prop :=
  ∀ s t : State, s.busy = true → step s = .next t → nextEvent s ≠ .rst true →
    t.digest = s.digest ∧ t.digits = s.digits ∧ t.alg = s.alg ∧
    (t.busy = true → t.offset = s.offset ∧ t.value = s.value ∧ t.code = s.code ∧
      t.done = s.done) ∧
    (t.busy = false → nextEvent s = .engine ∧ t.done = true ∧
      truncate s.digest s.alg s.digits = .ok ⟨t.offset, t.value, t.code⟩)

/-- The summary of 40_register_access.md section 9: which moves can change the digest, the configuration
and the results. -/
def Obligations.OnlyTheListedMovesChangeState : Prop :=
  ∀ s t : State, step s = .next t → nextEvent s ≠ .rst true →
    (t.digest ≠ s.digest → s.busy = false ∧ ∃ i, nextInstr s = some i ∧
      (i = .clear ∨ ∃ k b0 b1 b2 b3, i = .wrDigestw k b0 b1 b2 b3)) ∧
    ((t.digits ≠ s.digits ∨ t.alg ≠ s.alg) → s.busy = false ∧ ∃ hi lo,
      nextInstr s = some (.wrCfg hi t.alg lo t.digits) ∧
      validDigits t.digits = true ∧ validAlg t.alg = true) ∧
    ((t.offset ≠ s.offset ∨ t.value ≠ s.value ∨ t.code ≠ s.code) →
      (s.busy = true ∧ nextEvent s = .engine) ∨ (s.busy = false ∧ nextInstr s = some .clear))

/-! ### Reset -/

/-- R37: the reset value of every piece of state, and what the host reads of it. -/
def Obligations.ResetValues : Prop :=
  (∀ i, i < 64 → State.reset.digest.read i = 0x00) ∧
  State.reset.digits = 6 ∧ State.reset.alg = 0 ∧
  State.reset.offset = 0 ∧ State.reset.value = 0 ∧ State.reset.code = 0 ∧
  State.reset.busy = false ∧ State.reset.done = false ∧
  (∀ e : Error, State.reset.err.get e = false) ∧
  exec .rdCfg State.reset = .next { State.reset with rdata := some 0x00000006 } ∧
  exec .rdStatus State.reset = .next { State.reset with rdata := some 0x00000000 } ∧
  exec .rdErr State.reset = .next { State.reset with rdata := some 0x00000000 } ∧
  exec .rdOffset State.reset = .next { State.reset with rdata := some 0x00000000 } ∧
  exec .rdValue State.reset = .next { State.reset with rdata := some 0x00000000 } ∧
  exec .rdCode State.reset = .next { State.reset with rdata := some 0x00000000 } ∧
  ∀ k, exec (.rdDigestw k) State.reset = .next { State.reset with rdata := some 0x00000000 }

/-- R160 and R161: asserting `rst` gives every piece of state its reset value, from any state, busy or
idle, in one step. -/
def Obligations.ResetStepRestoresEverything : Prop :=
  ∀ s : State, nextEvent s = .rst true →
    ∃ t, step s = .next t ∧
      (∀ i, i < 64 → t.digest.read i = 0x00) ∧ t.digits = 6 ∧ t.alg = 0 ∧
      t.offset = 0 ∧ t.value = 0 ∧ t.code = 0 ∧ t.busy = false ∧ t.done = false ∧
      ∀ e : Error, t.err.get e = false

/-- R162: while `rst` is asserted a transaction is refused, however the host presents it; and the state
after `rst` is released, the one the first transaction sees, is the reset state. -/
def Obligations.NoTransactionUnderReset : Prop :=
  ∀ (s : State) (rest : List Event), s.rst = true →
    (∀ w, s.schedule = .transaction w :: rest → step s = .refused .transactionDuringReset) ∧
    (∀ a w, accessWord a = some w → s.schedule = .access a :: rest →
      step s = .refused .transactionDuringReset) ∧
    (Inv s → s.schedule = .rst false :: rest →
      step s = .next { State.reset with schedule := rest })

/-! ### Steps, invariants and progress -/

/-- A step runs the decoded instruction: with a transaction next and `rst` released, a step is the
instruction its word decodes to, run on the state with the move taken off the schedule and no answer on
`rdata` (log entries 1 and 4); and a word that does not decode is refused by name (log entry 7). -/
def Obligations.StepRunsTheDecodedInstruction : Prop :=
  ∀ (s : State) (w : TWord) (rest : List Event), s.rst = false →
    s.schedule = .transaction w :: rest →
    (∀ i, decode w = .ok i → step s = exec i { s with schedule := rest, rdata := none }) ∧
    (∀ e, decode w = .error e → step s = .refused (.undecodable e))

/-- The word placed for the next step is the one it runs (log entry 1, the model's convention). -/
def Obligations.PlacedWordRunsNext : Prop :=
  ∀ (s : State) (nbits w : Nat) (i : Instr), decodeTableWord nbits w = some i →
    step (s.withFetchWord nbits w) = exec i { s with rst := false, rdata := none }

/-- The invariant holds at reset. -/
def Obligations.ResetSatisfiesTheInvariant : Prop := Inv State.reset

/-- Every step keeps the invariant: the buffer's canonical form, the legal configuration (R35), the
meaning of `DONE` (R31), the ranges (R36), and the reset values under `rst`. -/
def Obligations.StepKeepsTheInvariant : Prop :=
  ∀ s t : State, Inv s → step s = .next t → Inv t

/-- No run from a state of the invariant ends in a fault: the two faults are for configurations that no
run reaches (R7, R35, R120). -/
def Obligations.RunsFromTheInvariantNeverFault : Prop :=
  ∀ (s : State) (k : Nat), Inv s → SafeRun s k

/-- With `DONE` set where the invariant holds, the engine is idle and the results are those of the present
inputs, in numbers; the code is below `10^DIGITS` (R31). -/
def Obligations.DoneMeansTheResultsMatch : Prop :=
  ∀ s : State, Inv s → s.done = true →
    s.busy = false ∧ s.code.toNat < 10 ^ s.digits.toNat ∧
    s.code.toNat = s.value.toNat % 10 ^ s.digits.toNat ∧
    ∃ len, dlen s.alg = some len ∧ s.offset.toNat = (s.digest.read (len - 1)).toNat % 16 ∧
      s.value.toNat = memRead s.digest s.offset.toNat 4 % 2 ^ 31

/-- Progress (R9, R177): from a state of the invariant the engine is idle after at most one step more than
there are moves scheduled, unless a move is refused before that; and where an operation was in flight and
no reset is scheduled, which would abandon it (R161), it has then completed: `DONE` is set and the results
are those of the inputs it was accepted with. The bound rests on the model's choice that the engine has
its turn when nothing is scheduled (log entry 2). -/
def Obligations.EngineFinishesWhenTheScheduleEnds : Prop :=
  ∀ s : State, Inv s → ∃ k, k ≤ s.schedule.length + 1 ∧
    ((∃ t, core.run k s = .next t ∧ t.busy = false ∧
        (s.busy = true → (∀ e ∈ s.schedule, e ≠ .rst true) → t.done = true ∧
          truncate s.digest s.alg s.digits = .ok ⟨t.offset, t.value, t.code⟩)) ∨
      ∃ r, core.run k s = .refused r)

/-- R176: a write to a digest word and the completion in either order. Write first: it is rejected and the
completion has the results of the old word. Completion first: the same results, and the write is then
accepted and clears `DONE`. -/
def Obligations.WriteAndCompletionInEitherOrder : Prop :=
  ∀ (s : State) (r : Truncation) (k : BitVec 4) (b0 b1 b2 b3 : Byte), s.busy = true →
    truncate s.digest s.alg s.digits = .ok r →
    (∃ t u, exec (.wrDigestw k b0 b1 b2 b3) s = .next t ∧ engineTurn t = .next u ∧
      u = { s with
        offset := r.offset, value := r.value, code := r.code, busy := false, done := true,
        err := { s.err with busy := true } }) ∧
    (∃ t u, engineTurn s = .next t ∧ exec (.wrDigestw k b0 b1 b2 b3) t = .next u ∧
      u = { s with
        offset := r.offset, value := r.value, code := r.code, busy := false, done := false,
        digest := memWrite s.digest (digestwIndex k) 4 (digestwData b0 b1 b2 b3).toNat })

/-! ### Programs of a driver -/

/-- R74, the expansions that are transactions: `SETCFG` is one write of `(code << 8) | digits` to `CFG`,
`CLRERR` one of `0x0000000F` to `ERR`, and `LDDIG` a write of bytes `4k` to `4k+3`, the first the most
significant, to each `DIGESTW[k]` in ascending `k`. -/
def Obligations.PseudoInstructionsExpand : Prop :=
  (∀ (digits : BitVec 4) (alg : AlgName),
    (setcfg digits alg).map encode
      = [wordAtOffset true 0x0C (BitVec.ofNat 32 ((algCode alg).toNat <<< 8 ||| digits.toNat))]) ∧
  clrerr.map encode = [wordAtOffset true 0x08 0x0000000F] ∧
  (∀ g : List Byte, (g.length = 20 ∨ g.length = 32 ∨ g.length = 64) →
    (lddig g).map encode = (List.range (g.length / 4)).map fun k =>
      wordAtOffset true (0x40 + 4 * k) (BitVec.ofNat 32
        (((g.drop (4 * k)).take 4).foldl (fun acc b => 256 * acc + b.toNat) 0)))

/-- `WAIT` (R74): a turn of a driver at a `WAIT` is one read of `STATUS`, recorded in the trace; it ends the
`WAIT` exactly when bit 0 of the word read is 0, that is when the machine was not busy, and otherwise the
`WAIT` stands; the machine is left as it was but for the answer. -/
def Obligations.WaitReadsStatusUntilIdle : Prop :=
  ∀ (d : Driver) (rest : List DriverOp), d.program = .wait :: rest → d.machine.rst = false →
    ∃ w, w.getLsbD 0 = d.machine.busy ∧
      takeTurn .driver d = .next {
        program := if w.getLsbD 0 then .wait :: rest else rest
        machine := { d.machine with rdata := some w }
        trace := d.trace ++ [(.status, w)] }

/-- Polling terminates (R9, R177): with no reset and no other master, a program of transactions and `WAIT`s
comes to its end in every run in which an engine's turn followed by a driver's turn occurs, with any
turns between, as often as the program has lines; and no such run, fair or not, stops in a fault or a
refusal. -/
def Obligations.FairDriverRunsFinish : Prop :=
  ∀ (d : Driver) (turns : List Turn), Inv d.machine → d.machine.rst = false →
    (∀ i, .instr i ∈ d.program → i.wellFormed = true) →
    (∀ e, .other e ∈ turns → e = .engine) →
    ∃ d', drive turns d = .next d' ∧
      ((List.replicate d.program.length [Turn.other .engine, Turn.driver]).flatten.Sublist turns →
        d'.program = [])

/-- The correspondence of R74, and property M7 of 95_test_vectors.md for `TRUNCATE`: from any idle state, in
every interleaving with the engine and with no other master and no reset, `TRUNCATE g, n, alg` for a
digest of the algorithm's length sets no error flag, and when it has come to its end the word it read from
`CODE`, its last, is the source's `truncate(g, n)`. Before it come the reads of its `WAIT`, at least one,
all but the last with `BUSY` = 1 and the last with `BUSY` = 0 and `DONE` = 1. -/
def Obligations.TruncateReadsTheSourceTruncate : Prop :=
  ∀ (s : State) (g : List Byte) (n : BitVec 4) (alg : AlgName) (turns : List Turn),
    s.busy = false → s.rst = false → s.digest.wf →
    dlen (algCode alg) = some g.length → (n = 6 ∨ n = 7 ∨ n = 8) →
    (∀ e, .other e ∈ turns → e = .engine) →
    ∃ d, drive turns (Driver.start (truncateSequence g n alg) s) = .next d ∧
      d.machine.err = s.err ∧
      (d.program = [] → ∃ (k : Nat) (code : Word),
        d.trace = List.replicate k (Slot.status, 0x1) ++ [(Slot.status, 0x2), (Slot.code, code)] ∧
        code.toNat = sourceTruncate g n.toNat ∧ code.toNat < 10 ^ n.toNat ∧
        d.machine.busy = false ∧ d.machine.done = true ∧
        d.machine.alg = algCode alg ∧ d.machine.digits = n)

/-- Property M7 for the sequence of R166 with all its steps: from any idle state, in every interleaving with
the engine and with no other master and no reset, it sets no error flag, reads `ERR` with the flags
unchanged, and when it has come to its end it has read the source's `truncate(g, n)`, offset and value, and
the digest and the results are zero. That the sequence goes on where the `ERR` it read has bit 0 or 1 set,
which can only be a flag set before it, is the model's choice (log entry 16). -/
def Obligations.DriverSequenceGivesTheCode : Prop :=
  ∀ (s : State) (g : List Byte) (n : BitVec 4) (alg : AlgName) (turns : List Turn),
    s.busy = false → s.rst = false → s.digest.wf →
    dlen (algCode alg) = some g.length → (n = 6 ∨ n = 7 ∨ n = 8) →
    (∀ e, .other e ∈ turns → e = .engine) →
    ∃ d, drive turns (Driver.start (driverSequence g n alg) s) = .next d ∧
      d.machine.err = s.err ∧
      (d.program = [] → ∃ (k : Nat) (code offset value : Word),
        d.trace = (Slot.err, errWord s.err) :: List.replicate k (Slot.status, 0x1)
          ++ [(Slot.status, 0x2), (Slot.code, code), (Slot.offset, offset), (Slot.value, value)] ∧
        code.toNat = sourceTruncate g n.toNat ∧ offset.toNat = sourceOffset g ∧
        value.toNat = sourceValue g ∧
        (∀ i, i < 64 → d.machine.digest.read i = 0x00) ∧ d.machine.offset = 0 ∧
        d.machine.value = 0 ∧ d.machine.code = 0 ∧ d.machine.done = false ∧
        d.machine.busy = false ∧ d.machine.alg = algCode alg ∧ d.machine.digits = n)
end

