-- ==== Sys2Proof/Laws/Encoding.lean ====
section
/-! SUPPORT. The bits of the words built from fields (a transaction word, and the data of a write with
operands), the fields read back from them, and the register map in both directions. -/

namespace Sys2Proof

/-! ### The transaction word -/

theorem getLsbD_tWord (we : Bool) (w : BitVec 5) (d : Word) (j : Nat) :
    (tWord we w d).getLsbD j =
      if j < 32 then d.getLsbD j
      else if j - 32 < 5 then w.getLsbD (j - 32)
      else decide (j = 37) && we := by
  change BitVec.getLsbD (w := 1 + 5 + 32) ((BitVec.ofBool we ++ w) ++ d) j = _
  rw [BitVec.getLsbD_append, BitVec.getLsbD_append, BitVec.getLsbD_ofBool]
  split_ifs with h1 h2
  · rfl
  · rfl
  · congr 1
    exact decide_eq_decide.mpr (by omega)

@[simp] theorem tWe_tWord (we : Bool) (w : BitVec 5) (d : Word) : tWe (tWord we w d) = we := by
  rw [tWe, getLsbD_tWord]
  simp

@[simp] theorem tData_tWord (we : Bool) (w : BitVec 5) (d : Word) : tData (tWord we w d) = d := by
  apply BitVec.eq_of_getLsbD_eq
  intro j hj
  simp [tData, getLsbD_tWord, hj]

@[simp] theorem tWidx_tWord (we : Bool) (w : BitVec 5) (d : Word) : tWidx (tWord we w d) = w := by
  apply BitVec.eq_of_getLsbD_eq
  intro j hj
  simp [tWidx, getLsbD_tWord, hj]

/-- A word is composed of its fields. -/
theorem tWord_fields (t : TWord) : tWord (tWe t) (tWidx t) (tData t) = t := by
  apply BitVec.eq_of_getLsbD_eq
  intro j hj
  rw [getLsbD_tWord]
  split_ifs with h1 h2
  · simp [tData, h1]
  · simp [tWidx, h2, show 32 + (j - 32) = j by omega]
  · obtain rfl : j = 37 := by omega
    simp [tWe]

theorem tWord_inj {a b : Bool} {w w' : BitVec 5} {d d' : Word} :
    tWord a w d = tWord b w' d' ↔ a = b ∧ w = w' ∧ d = d' := by
  refine ⟨fun h => ⟨?_, ?_, ?_⟩, ?_⟩
  · simpa using congrArg tWe h
  · simpa using congrArg tWidx h
  · simpa using congrArg tData h
  · rintro ⟨rfl, rfl, rfl⟩
    rfl

/-- Masking acts field by field, as the rows of the opcode table need. -/
theorem tWord_and (a b : Bool) (w w' : BitVec 5) (d d' : Word) :
    tWord a w d &&& tWord b w' d' = tWord (a && b) (w &&& w') (d &&& d') := by
  apply BitVec.eq_of_getLsbD_eq
  intro j hj
  simp only [BitVec.getLsbD_and, getLsbD_tWord]
  split_ifs
  · rfl
  · rfl
  · cases decide (j = 37) <;> simp

theorem tWord_toNat (we : Bool) (w : BitVec 5) (d : Word) :
    (tWord we w d).toNat = we.toNat * 2 ^ 37 + w.toNat * 2 ^ 32 + d.toNat := by
  change BitVec.toNat (w := 1 + 5 + 32) (BitVec.ofBool we ++ w ++ d) = _
  rw [BitVec.toNat_append, BitVec.toNat_append, ← Nat.shiftLeft_add_eq_or_of_lt d.isLt,
    ← Nat.shiftLeft_add_eq_or_of_lt w.isLt]
  simp only [Nat.shiftLeft_eq, BitVec.toNat_ofBool]
  ring

/-! ### The data of a write with operands -/

theorem getLsbD_errData (ignored : BitVec 28) (m : BitVec 4) (j : Nat) :
    (Instr.wrErr ignored m).data.getLsbD j =
      if j < 4 then m.getLsbD j else ignored.getLsbD (j - 4) := by
  change BitVec.getLsbD (w := 28 + 4) (ignored ++ m) j = _
  rw [BitVec.getLsbD_append]

theorem getLsbD_cfgData (hi : BitVec 22) (alg : BitVec 2) (lo digits : BitVec 4) (j : Nat) :
    (Instr.wrCfg hi alg lo digits).data.getLsbD j =
      if j < 4 then digits.getLsbD j
      else if j - 4 < 4 then lo.getLsbD (j - 4)
      else if j - 4 - 4 < 2 then alg.getLsbD (j - 4 - 4)
      else hi.getLsbD (j - 4 - 4 - 2) := by
  change BitVec.getLsbD (w := 22 + 2 + 4 + 4) (hi ++ alg ++ lo ++ digits) j = _
  rw [BitVec.getLsbD_append, BitVec.getLsbD_append, BitVec.getLsbD_append]

theorem getLsbD_digestwData (k : BitVec 4) (b0 b1 b2 b3 : Byte) (j : Nat) :
    (Instr.wrDigestw k b0 b1 b2 b3).data.getLsbD j =
      if j < 8 then b3.getLsbD j
      else if j - 8 < 8 then b2.getLsbD (j - 8)
      else if j - 8 - 8 < 8 then b1.getLsbD (j - 8 - 8)
      else b0.getLsbD (j - 8 - 8 - 8) := by
  change BitVec.getLsbD (w := 8 + 8 + 8 + 8) (b0 ++ b1 ++ b2 ++ b3) j = _
  rw [BitVec.getLsbD_append, BitVec.getLsbD_append, BitVec.getLsbD_append]

/-! ### The register map -/

@[simp] theorem slotOfWidx_widxOfSlot (sl : Slot) : slotOfWidx (widxOfSlot sl) = sl := by
  cases sl with
  | rsvd8to15 r => revert r; decide
  | digestw k => revert k; decide
  | _ => decide

@[simp] theorem widxOfSlot_slotOfWidx (w : BitVec 5) : widxOfSlot (slotOfWidx w) = w := by
  revert w
  decide

end Sys2Proof
end

