-- ==== Sys2Proof/Laws/Memory.lean ====
section
/-! SUPPORT. The laws of the digest buffer: read after write, writes keep the canonical form, and the
indices the instructions use lie inside the buffer. -/

namespace Sys2Proof.Machine

@[simp] theorem read_nil (i : Nat) : Memory.read [] i = 0 := rfl

/-- An index below every listed one reads as unlisted. -/
theorem read_of_lt {m : Memory} {i : Nat} (h : ∀ c ∈ m, i < c.1) : m.read i = 0 := by
  induction m with
  | nil => rfl
  | cons c m ih =>
    have hc := h c (by simp)
    simp only [Memory.read]
    rw [if_neg (by omega)]
    exact ih fun d hd => h d (by simp [hd])

theorem read_write_self {m : Memory} (h : m.Pairwise fun x y => x.1 < y.1) (i : Nat) (b : Byte) :
    (m.write i b).read i = b := by
  induction m with
  | nil =>
    simp only [Memory.write]
    split_ifs with hb <;> simp [Memory.read, hb]
  | cons c m ih =>
    obtain ⟨hc, hm⟩ := List.pairwise_cons.mp h
    obtain ⟨j, d⟩ := c
    simp only [Memory.write]
    split_ifs with h1 h2 h3 h4
    · rw [h2]
      exact read_of_lt fun x hx => by
        rcases List.mem_cons.mp hx with rfl | hx
        · exact h1
        · exact lt_trans h1 (hc x hx)
    · simp [Memory.read]
    · rw [h4, h3]
      exact read_of_lt hc
    · simp [Memory.read]
    · simp only [Memory.read, if_neg h3]
      exact ih hm

theorem read_write_of_ne (m : Memory) {i i' : Nat} (b : Byte) (hne : i' ≠ i) :
    (m.write i b).read i' = m.read i' := by
  induction m with
  | nil =>
    simp only [Memory.write]
    split_ifs with hb <;> simp [Memory.read, hne]
  | cons c m ih =>
    obtain ⟨j, d⟩ := c
    simp only [Memory.write]
    split_ifs with h1 h2 h3 h4
    · rfl
    · simp [Memory.read, hne]
    · simp [Memory.read, show i' ≠ j by omega]
    · simp [Memory.read, hne, show i' ≠ j by omega]
    · simp only [Memory.read, ih]

/-- A listed cell of a written buffer is the written one or was listed before. -/
theorem mem_write {m : Memory} {i : Nat} {b : Byte} {c : Host.Cell} (h : c ∈ m.write i b) :
    (c = (i, b) ∧ b ≠ 0) ∨ c ∈ m := by
  induction m with
  | nil =>
    by_cases hb : b = 0 <;> simp_all [Memory.write]
  | cons d m ih =>
    obtain ⟨j, e⟩ := d
    simp only [Memory.write] at h
    split_ifs at h with h1 h2 h3 h4 <;> simp only [List.mem_cons] at h ⊢
    · exact .inr h
    · exact h.imp (fun hc => ⟨hc, h2⟩) id
    · exact .inr (.inr h)
    · exact h.imp (fun hc => ⟨hc, h4⟩) .inr
    · rcases h with h | h
      · exact .inr (.inl h)
      · exact (ih h).imp_right .inr

theorem write_sorted {m : Memory} (h : m.Pairwise fun x y => x.1 < y.1) (i : Nat) (b : Byte) :
    (m.write i b).Pairwise fun x y => x.1 < y.1 := by
  induction m with
  | nil =>
    simp only [Memory.write]
    split_ifs with hb <;> simp
  | cons c m ih =>
    obtain ⟨hc, hm⟩ := List.pairwise_cons.mp h
    obtain ⟨j, d⟩ := c
    have hlow : i < j → ∀ x ∈ (j, d) :: m, i < x.1 := fun hij x hx => by
      rcases List.mem_cons.mp hx with rfl | hx
      · exact hij
      · exact lt_trans hij (hc x hx)
    simp only [Memory.write]
    split_ifs with h1 h2 h3 h4
    · exact h
    · exact List.pairwise_cons.mpr ⟨hlow h1, h⟩
    · exact hm
    · exact List.pairwise_cons.mpr ⟨fun x hx => h3 ▸ hc x hx, hm⟩
    · refine List.pairwise_cons.mpr ⟨fun x hx => ?_, ih hm⟩
      rcases mem_write hx with ⟨rfl, -⟩ | hx
      · change j < i
        omega
      · exact hc x hx

/-- A write inside the buffer keeps the canonical form. -/
theorem write_wf {m : Memory} (h : m.wf) {i : Nat} (hi : i < 64) (b : Byte) : (m.write i b).wf := by
  refine ⟨write_sorted h.1 i b, fun c hc => ?_⟩
  rcases mem_write hc with ⟨rfl, hb⟩ | hc
  · exact ⟨hi, hb⟩
  · exact h.2 c hc

/-- A write of several bytes inside the buffer keeps the canonical form. -/
theorem memWrite_wf {m : Memory} (h : m.wf) {addr n : Nat} (hn : addr + n ≤ 64) (v : Nat) :
    (memWrite m addr n v).wf := by
  induction n generalizing m addr with
  | zero => exact h
  | succ k ih => exact ih (write_wf h (by omega) _) (by omega)

/-- A write of several bytes leaves every other byte alone. -/
theorem read_memWrite_outside (m : Memory) {addr n i : Nat} (v : Nat)
    (hi : i < addr ∨ addr + n ≤ i) : (memWrite m addr n v).read i = m.read i := by
  induction n generalizing m addr with
  | zero => rfl
  | succ k ih =>
    rw [memWrite, ih _ (by omega), read_write_of_ne _ _ (by omega)]

theorem memWrite_sorted {m : Memory} (h : m.Pairwise fun x y => x.1 < y.1) (addr n v : Nat) :
    (memWrite m addr n v).Pairwise fun x y => x.1 < y.1 := by
  induction n generalizing m addr with
  | zero => exact h
  | succ k ih => exact ih (write_sorted h _ _) _

/-- A write of several bytes stores byte `j` of the number, counted from the most significant, at the
`j`-th index. -/
theorem read_memWrite_inside {m : Memory} (h : m.Pairwise fun x y => x.1 < y.1) {addr n v j : Nat}
    (hj : j < n) :
    (memWrite m addr n v).read (addr + j) = BitVec.ofNat 8 (v >>> (8 * (n - 1 - j))) := by
  induction n generalizing m addr j with
  | zero => omega
  | succ k ih =>
    rw [memWrite]
    cases j with
    | zero =>
      rw [read_memWrite_outside _ _ (by omega), Nat.add_zero, read_write_self h]
      rfl
    | succ j =>
      rw [show addr + (j + 1) = addr + 1 + j by omega, ih (write_sorted h _ _) (by omega)]
      congr 3
      omega

theorem memRead_lt (m : Memory) (addr n : Nat) : memRead m addr n < 256 ^ n := by
  induction n generalizing addr with
  | zero => simp [memRead]
  | succ k ih =>
    have hb := (m.read addr).isLt
    have hk := ih (addr + 1)
    have hmul : (m.read addr).toNat * 256 ^ k ≤ 255 * 256 ^ k :=
      Nat.mul_le_mul_right _ (by omega)
    rw [memRead, pow_succ]
    omega

/-- A read of several bytes depends on those bytes alone. -/
theorem memRead_congr {m m' : Memory} {addr n : Nat}
    (h : ∀ i, addr ≤ i → i < addr + n → m.read i = m'.read i) :
    memRead m addr n = memRead m' addr n := by
  induction n generalizing addr with
  | zero => rfl
  | succ k ih =>
    rw [memRead, memRead, h addr (by omega) (by omega),
      ih fun i h1 h2 => h i (by omega) (by omega)]

theorem memReadWord_toNat (m : Memory) (addr : Nat) :
    (memReadWord m addr).toNat = memRead m addr 4 := by
  have h := memRead_lt m addr 4
  simp only [memReadWord, BitVec.toNat_ofNat]
  exact Nat.mod_eq_of_lt (lt_of_lt_of_eq h (by norm_num))

theorem memReadWord_congr {m m' : Memory} {addr : Nat}
    (h : ∀ i, addr ≤ i → i < addr + 4 → m.read i = m'.read i) :
    memReadWord m addr = memReadWord m' addr :=
  congrArg (BitVec.ofNat 32) (memRead_congr h)

/-! ### Every index an instruction or the engine uses lies in the buffer (R7, R40) -/

theorem digestwIndex_le (k : BitVec 4) : digestwIndex k + 4 ≤ 64 := by
  have := k.isLt
  simp only [digestwIndex]
  omega

theorem windowIndex_le (o : BitVec 4) : o.toNat + 4 ≤ 19 := by
  have := o.isLt
  omega

theorem validDigits_iff {d : BitVec 4} : validDigits d = true ↔ d = 6 ∨ d = 7 ∨ d = 8 := by
  revert d
  decide

theorem validAlg_iff {a : BitVec 2} : validAlg a = true ↔ a = 0 ∨ a = 1 ∨ a = 2 := by
  revert a
  decide

/-- The check of a `CFG` write is the range of R12: `DIGITS_MIN` to `DIGITS_MAX`. -/
theorem validDigits_eq_range (d : BitVec 4) :
    validDigits d = decide (Config.digitsMin ≤ d.toNat ∧ d.toNat ≤ Config.digitsMax) := by
  revert d
  decide

/-- The digest lengths (R24). -/
theorem dlen_cases {a : BitVec 2} {len : Nat} (h : dlen a = some len) :
    (a = 0 ∧ len = 20) ∨ (a = 1 ∧ len = 32) ∨ (a = 2 ∧ len = 64) := by
  unfold dlen at h
  split_ifs at h with h0 h1 h2 <;> simp_all

/-- A legal algorithm code has a length. -/
theorem dlen_of_validAlg {a : BitVec 2} (h : validAlg a = true) : ∃ len, dlen a = some len := by
  have all : ∀ a : BitVec 2, validAlg a = true → (dlen a).isSome = true := by decide
  exact Option.isSome_iff_exists.mp (all a h)

end Sys2Proof.Machine
end

