-- ==== Sys2Proof/Laws/PerInstr.lean ====
section
/-! SUPPORT. The family Operands: for each instruction, the operand assembly of R63 read back from the
slot and the data it is encoded with gives the instruction, every field at every value. -/

namespace Sys2Proof.Laws.Operands

/-- Decoding the slot and data of a well-formed instruction gives it back. -/
def Statement (i : Instr) : Prop :=
  i.wellFormed = true →
    (if i.isWrite then decodeWrite i.slot i.data else decodeRead i.slot) = i

theorem nop : Statement .nop := fun _ => rfl

theorem trunc : Statement .trunc := fun _ => rfl

theorem clear : Statement .clear := fun _ => rfl

theorem cmdIllegal (data : Word) : Statement (.cmdIllegal data) := by
  intro h
  simp only [Instr.wellFormed, illegalCommandWord, Bool.and_eq_true, bne_iff_ne] at h
  obtain ⟨⟨h0, h1⟩, h2⟩ := h
  simp only [Instr.isWrite, Instr.slot, Instr.data, decodeWrite, decodeCommand, if_true]
  exact (if_neg h0).trans ((if_neg h1).trans (if_neg h2))

theorem wrStatus (data : Word) : Statement (.wrStatus data) := fun _ => rfl

theorem wrErr (ignored : BitVec 28) (m : BitVec 4) : Statement (.wrErr ignored m) := by
  intro _
  simp only [Instr.isWrite, Instr.slot, decodeWrite, if_true, Instr.wrErr.injEq]
  refine ⟨?_, ?_⟩ <;> apply BitVec.eq_of_getLsbD_eq <;> intro j hj <;>
    simp [getLsbD_errData, hj]

theorem wrCfg (hi : BitVec 22) (alg : BitVec 2) (lo : BitVec 4) (digits : BitVec 4) : Statement (.wrCfg hi alg lo digits) := by
  intro _
  simp only [Instr.isWrite, Instr.slot, decodeWrite, if_true, Instr.wrCfg.injEq]
  refine ⟨?_, ?_, ?_, ?_⟩ <;> apply BitVec.eq_of_getLsbD_eq <;> intro j hj <;>
    simp only [BitVec.getLsbD_extractLsb', getLsbD_cfgData, hj, decide_true, Bool.true_and]
  · rw [if_neg (by omega), if_neg (by omega), if_neg (by omega)]
    congr 1
    omega
  · rw [if_neg (by omega), if_neg (by omega), if_pos (by omega)]
    congr 1
    omega
  · rw [if_neg (by omega), if_pos (by omega)]
    congr 1
    omega
  · rw [if_pos (by omega)]
    congr 1
    omega

theorem wrOffset (data : Word) : Statement (.wrOffset data) := fun _ => rfl

theorem wrValue (data : Word) : Statement (.wrValue data) := fun _ => rfl

theorem wrCode (data : Word) : Statement (.wrCode data) := fun _ => rfl

theorem wrRsvd7 (data : Word) : Statement (.wrRsvd7 data) := fun _ => rfl

theorem wrRsvd8to15 (r : BitVec 3) (data : Word) : Statement (.wrRsvd8to15 r data) := fun _ => rfl

theorem wrDigestw (k : BitVec 4) (b0 : Byte) (b1 : Byte) (b2 : Byte) (b3 : Byte) : Statement (.wrDigestw k b0 b1 b2 b3) := by
  intro _
  simp only [Instr.isWrite, Instr.slot, decodeWrite, if_true, Instr.wrDigestw.injEq, true_and]
  refine ⟨?_, ?_, ?_, ?_⟩ <;> apply BitVec.eq_of_getLsbD_eq <;> intro j hj <;>
    simp only [BitVec.getLsbD_extractLsb', getLsbD_digestwData, hj, decide_true, Bool.true_and]
  · rw [if_neg (by omega), if_neg (by omega), if_neg (by omega)]
    congr 1
    omega
  · rw [if_neg (by omega), if_neg (by omega), if_pos (by omega)]
    congr 1
    omega
  · rw [if_neg (by omega), if_pos (by omega)]
    congr 1
    omega
  · rw [if_pos (by omega)]
    congr 1
    omega

theorem rdCmd : Statement .rdCmd := fun _ => rfl

theorem rdStatus : Statement .rdStatus := fun _ => rfl

theorem rdErr : Statement .rdErr := fun _ => rfl

theorem rdCfg : Statement .rdCfg := fun _ => rfl

theorem rdOffset : Statement .rdOffset := fun _ => rfl

theorem rdValue : Statement .rdValue := fun _ => rfl

theorem rdCode : Statement .rdCode := fun _ => rfl

theorem rdRsvd7 : Statement .rdRsvd7 := fun _ => rfl

theorem rdRsvd8to15 (r : BitVec 3) : Statement (.rdRsvd8to15 r) := fun _ => rfl

theorem rdDigestw (k : BitVec 4) : Statement (.rdDigestw k) := fun _ => rfl

end Sys2Proof.Laws.Operands
end

