-- ==== Sys2Proof/Laws/State.lean ====
section
/-! SUPPORT. What each update of the state does to each field, one lemma per field per update, and the
same for the flags of `ERR`. -/

namespace Sys2Proof.Machine

variable (s : State)

/-! ### raise -/

@[simp] theorem raise_digest (e : Error) : (s.raise e).digest = s.digest := rfl
@[simp] theorem raise_digits (e : Error) : (s.raise e).digits = s.digits := rfl
@[simp] theorem raise_alg (e : Error) : (s.raise e).alg = s.alg := rfl
@[simp] theorem raise_offset (e : Error) : (s.raise e).offset = s.offset := rfl
@[simp] theorem raise_value (e : Error) : (s.raise e).value = s.value := rfl
@[simp] theorem raise_code (e : Error) : (s.raise e).code = s.code := rfl
@[simp] theorem raise_busy (e : Error) : (s.raise e).busy = s.busy := rfl
@[simp] theorem raise_done (e : Error) : (s.raise e).done = s.done := rfl
@[simp] theorem raise_err (e : Error) : (s.raise e).err = s.err.set e := rfl
@[simp] theorem raise_rdata (e : Error) : (s.raise e).rdata = s.rdata := rfl
@[simp] theorem raise_rst (e : Error) : (s.raise e).rst = s.rst := rfl
@[simp] theorem raise_schedule (e : Error) : (s.raise e).schedule = s.schedule := rfl

/-! ### clearFlags -/

@[simp] theorem clearFlags_digest (m : BitVec 4) : (s.clearFlags m).digest = s.digest := rfl
@[simp] theorem clearFlags_digits (m : BitVec 4) : (s.clearFlags m).digits = s.digits := rfl
@[simp] theorem clearFlags_alg (m : BitVec 4) : (s.clearFlags m).alg = s.alg := rfl
@[simp] theorem clearFlags_offset (m : BitVec 4) : (s.clearFlags m).offset = s.offset := rfl
@[simp] theorem clearFlags_value (m : BitVec 4) : (s.clearFlags m).value = s.value := rfl
@[simp] theorem clearFlags_code (m : BitVec 4) : (s.clearFlags m).code = s.code := rfl
@[simp] theorem clearFlags_busy (m : BitVec 4) : (s.clearFlags m).busy = s.busy := rfl
@[simp] theorem clearFlags_done (m : BitVec 4) : (s.clearFlags m).done = s.done := rfl
@[simp] theorem clearFlags_err (m : BitVec 4) : (s.clearFlags m).err = s.err.clear m := rfl
@[simp] theorem clearFlags_rdata (m : BitVec 4) : (s.clearFlags m).rdata = s.rdata := rfl
@[simp] theorem clearFlags_rst (m : BitVec 4) : (s.clearFlags m).rst = s.rst := rfl
@[simp] theorem clearFlags_schedule (m : BitVec 4) : (s.clearFlags m).schedule = s.schedule := rfl

/-! ### respond -/

@[simp] theorem respond_digest (w : Word) : (s.respond w).digest = s.digest := rfl
@[simp] theorem respond_digits (w : Word) : (s.respond w).digits = s.digits := rfl
@[simp] theorem respond_alg (w : Word) : (s.respond w).alg = s.alg := rfl
@[simp] theorem respond_offset (w : Word) : (s.respond w).offset = s.offset := rfl
@[simp] theorem respond_value (w : Word) : (s.respond w).value = s.value := rfl
@[simp] theorem respond_code (w : Word) : (s.respond w).code = s.code := rfl
@[simp] theorem respond_busy (w : Word) : (s.respond w).busy = s.busy := rfl
@[simp] theorem respond_done (w : Word) : (s.respond w).done = s.done := rfl
@[simp] theorem respond_err (w : Word) : (s.respond w).err = s.err := rfl
@[simp] theorem respond_rdata (w : Word) : (s.respond w).rdata = some w := rfl
@[simp] theorem respond_rst (w : Word) : (s.respond w).rst = s.rst := rfl
@[simp] theorem respond_schedule (w : Word) : (s.respond w).schedule = s.schedule := rfl

/-! ### acceptTrunc -/

@[simp] theorem acceptTrunc_digest : (s.acceptTrunc).digest = s.digest := rfl
@[simp] theorem acceptTrunc_digits : (s.acceptTrunc).digits = s.digits := rfl
@[simp] theorem acceptTrunc_alg : (s.acceptTrunc).alg = s.alg := rfl
@[simp] theorem acceptTrunc_offset : (s.acceptTrunc).offset = s.offset := rfl
@[simp] theorem acceptTrunc_value : (s.acceptTrunc).value = s.value := rfl
@[simp] theorem acceptTrunc_code : (s.acceptTrunc).code = s.code := rfl
@[simp] theorem acceptTrunc_busy : (s.acceptTrunc).busy = true := rfl
@[simp] theorem acceptTrunc_done : (s.acceptTrunc).done = false := rfl
@[simp] theorem acceptTrunc_err : (s.acceptTrunc).err = s.err := rfl
@[simp] theorem acceptTrunc_rdata : (s.acceptTrunc).rdata = s.rdata := rfl
@[simp] theorem acceptTrunc_rst : (s.acceptTrunc).rst = s.rst := rfl
@[simp] theorem acceptTrunc_schedule : (s.acceptTrunc).schedule = s.schedule := rfl

/-! ### scrub -/

@[simp] theorem scrub_digest : (s.scrub).digest = [] := rfl
@[simp] theorem scrub_digits : (s.scrub).digits = s.digits := rfl
@[simp] theorem scrub_alg : (s.scrub).alg = s.alg := rfl
@[simp] theorem scrub_offset : (s.scrub).offset = 0 := rfl
@[simp] theorem scrub_value : (s.scrub).value = 0 := rfl
@[simp] theorem scrub_code : (s.scrub).code = 0 := rfl
@[simp] theorem scrub_busy : (s.scrub).busy = s.busy := rfl
@[simp] theorem scrub_done : (s.scrub).done = false := rfl
@[simp] theorem scrub_err : (s.scrub).err = s.err := rfl
@[simp] theorem scrub_rdata : (s.scrub).rdata = s.rdata := rfl
@[simp] theorem scrub_rst : (s.scrub).rst = s.rst := rfl
@[simp] theorem scrub_schedule : (s.scrub).schedule = s.schedule := rfl

/-! ### configure -/

@[simp] theorem configure_digest (a : BitVec 2) (d : BitVec 4) : (s.configure a d).digest = s.digest := rfl
@[simp] theorem configure_digits (a : BitVec 2) (d : BitVec 4) : (s.configure a d).digits = d := rfl
@[simp] theorem configure_alg (a : BitVec 2) (d : BitVec 4) : (s.configure a d).alg = a := rfl
@[simp] theorem configure_offset (a : BitVec 2) (d : BitVec 4) : (s.configure a d).offset = s.offset := rfl
@[simp] theorem configure_value (a : BitVec 2) (d : BitVec 4) : (s.configure a d).value = s.value := rfl
@[simp] theorem configure_code (a : BitVec 2) (d : BitVec 4) : (s.configure a d).code = s.code := rfl
@[simp] theorem configure_busy (a : BitVec 2) (d : BitVec 4) : (s.configure a d).busy = s.busy := rfl
@[simp] theorem configure_done (a : BitVec 2) (d : BitVec 4) : (s.configure a d).done = false := rfl
@[simp] theorem configure_err (a : BitVec 2) (d : BitVec 4) : (s.configure a d).err = s.err := rfl
@[simp] theorem configure_rdata (a : BitVec 2) (d : BitVec 4) : (s.configure a d).rdata = s.rdata := rfl
@[simp] theorem configure_rst (a : BitVec 2) (d : BitVec 4) : (s.configure a d).rst = s.rst := rfl
@[simp] theorem configure_schedule (a : BitVec 2) (d : BitVec 4) : (s.configure a d).schedule = s.schedule := rfl

/-! ### storeDigestw -/

@[simp] theorem storeDigestw_digest (k : BitVec 4) (w : Word) : (s.storeDigestw k w).digest = memWrite s.digest (digestwIndex k) 4 w.toNat := rfl
@[simp] theorem storeDigestw_digits (k : BitVec 4) (w : Word) : (s.storeDigestw k w).digits = s.digits := rfl
@[simp] theorem storeDigestw_alg (k : BitVec 4) (w : Word) : (s.storeDigestw k w).alg = s.alg := rfl
@[simp] theorem storeDigestw_offset (k : BitVec 4) (w : Word) : (s.storeDigestw k w).offset = s.offset := rfl
@[simp] theorem storeDigestw_value (k : BitVec 4) (w : Word) : (s.storeDigestw k w).value = s.value := rfl
@[simp] theorem storeDigestw_code (k : BitVec 4) (w : Word) : (s.storeDigestw k w).code = s.code := rfl
@[simp] theorem storeDigestw_busy (k : BitVec 4) (w : Word) : (s.storeDigestw k w).busy = s.busy := rfl
@[simp] theorem storeDigestw_done (k : BitVec 4) (w : Word) : (s.storeDigestw k w).done = false := rfl
@[simp] theorem storeDigestw_err (k : BitVec 4) (w : Word) : (s.storeDigestw k w).err = s.err := rfl
@[simp] theorem storeDigestw_rdata (k : BitVec 4) (w : Word) : (s.storeDigestw k w).rdata = s.rdata := rfl
@[simp] theorem storeDigestw_rst (k : BitVec 4) (w : Word) : (s.storeDigestw k w).rst = s.rst := rfl
@[simp] theorem storeDigestw_schedule (k : BitVec 4) (w : Word) : (s.storeDigestw k w).schedule = s.schedule := rfl

/-! ### finish -/

@[simp] theorem finish_digest (o : BitVec 4) (v : BitVec 31) (c : BitVec 27) : (s.finish o v c).digest = s.digest := rfl
@[simp] theorem finish_digits (o : BitVec 4) (v : BitVec 31) (c : BitVec 27) : (s.finish o v c).digits = s.digits := rfl
@[simp] theorem finish_alg (o : BitVec 4) (v : BitVec 31) (c : BitVec 27) : (s.finish o v c).alg = s.alg := rfl
@[simp] theorem finish_offset (o : BitVec 4) (v : BitVec 31) (c : BitVec 27) : (s.finish o v c).offset = o := rfl
@[simp] theorem finish_value (o : BitVec 4) (v : BitVec 31) (c : BitVec 27) : (s.finish o v c).value = v := rfl
@[simp] theorem finish_code (o : BitVec 4) (v : BitVec 31) (c : BitVec 27) : (s.finish o v c).code = c := rfl
@[simp] theorem finish_busy (o : BitVec 4) (v : BitVec 31) (c : BitVec 27) : (s.finish o v c).busy = false := rfl
@[simp] theorem finish_done (o : BitVec 4) (v : BitVec 31) (c : BitVec 27) : (s.finish o v c).done = true := rfl
@[simp] theorem finish_err (o : BitVec 4) (v : BitVec 31) (c : BitVec 27) : (s.finish o v c).err = s.err := rfl
@[simp] theorem finish_rdata (o : BitVec 4) (v : BitVec 31) (c : BitVec 27) : (s.finish o v c).rdata = s.rdata := rfl
@[simp] theorem finish_rst (o : BitVec 4) (v : BitVec 31) (c : BitVec 27) : (s.finish o v c).rst = s.rst := rfl
@[simp] theorem finish_schedule (o : BitVec 4) (v : BitVec 31) (c : BitVec 27) : (s.finish o v c).schedule = s.schedule := rfl

/-! ### assertReset -/

@[simp] theorem assertReset_digest : (s.assertReset).digest = [] := rfl
@[simp] theorem assertReset_digits : (s.assertReset).digits = Config.digitsDefault := rfl
@[simp] theorem assertReset_alg : (s.assertReset).alg = Config.algDefault := rfl
@[simp] theorem assertReset_offset : (s.assertReset).offset = 0 := rfl
@[simp] theorem assertReset_value : (s.assertReset).value = 0 := rfl
@[simp] theorem assertReset_code : (s.assertReset).code = 0 := rfl
@[simp] theorem assertReset_busy : (s.assertReset).busy = false := rfl
@[simp] theorem assertReset_done : (s.assertReset).done = false := rfl
@[simp] theorem assertReset_err : (s.assertReset).err = ErrFlags.none := rfl
@[simp] theorem assertReset_rdata : (s.assertReset).rdata = none := rfl
@[simp] theorem assertReset_rst : (s.assertReset).rst = true := rfl
@[simp] theorem assertReset_schedule : (s.assertReset).schedule = s.schedule := rfl

/-! ### releaseReset -/

@[simp] theorem releaseReset_digest : (s.releaseReset).digest = s.digest := rfl
@[simp] theorem releaseReset_digits : (s.releaseReset).digits = s.digits := rfl
@[simp] theorem releaseReset_alg : (s.releaseReset).alg = s.alg := rfl
@[simp] theorem releaseReset_offset : (s.releaseReset).offset = s.offset := rfl
@[simp] theorem releaseReset_value : (s.releaseReset).value = s.value := rfl
@[simp] theorem releaseReset_code : (s.releaseReset).code = s.code := rfl
@[simp] theorem releaseReset_busy : (s.releaseReset).busy = s.busy := rfl
@[simp] theorem releaseReset_done : (s.releaseReset).done = s.done := rfl
@[simp] theorem releaseReset_err : (s.releaseReset).err = s.err := rfl
@[simp] theorem releaseReset_rdata : (s.releaseReset).rdata = s.rdata := rfl
@[simp] theorem releaseReset_rst : (s.releaseReset).rst = false := rfl
@[simp] theorem releaseReset_schedule : (s.releaseReset).schedule = s.schedule := rfl

/-! ### dequeue -/

@[simp] theorem dequeue_digest : (s.dequeue).digest = s.digest := rfl
@[simp] theorem dequeue_digits : (s.dequeue).digits = s.digits := rfl
@[simp] theorem dequeue_alg : (s.dequeue).alg = s.alg := rfl
@[simp] theorem dequeue_offset : (s.dequeue).offset = s.offset := rfl
@[simp] theorem dequeue_value : (s.dequeue).value = s.value := rfl
@[simp] theorem dequeue_code : (s.dequeue).code = s.code := rfl
@[simp] theorem dequeue_busy : (s.dequeue).busy = s.busy := rfl
@[simp] theorem dequeue_done : (s.dequeue).done = s.done := rfl
@[simp] theorem dequeue_err : (s.dequeue).err = s.err := rfl
@[simp] theorem dequeue_rdata : (s.dequeue).rdata = none := rfl
@[simp] theorem dequeue_rst : (s.dequeue).rst = s.rst := rfl
@[simp] theorem dequeue_schedule : (s.dequeue).schedule = s.schedule.tail := rfl

/-! ### present -/

@[simp] theorem present_digest (ev : Event) : (s.present ev).digest = s.digest := rfl
@[simp] theorem present_digits (ev : Event) : (s.present ev).digits = s.digits := rfl
@[simp] theorem present_alg (ev : Event) : (s.present ev).alg = s.alg := rfl
@[simp] theorem present_offset (ev : Event) : (s.present ev).offset = s.offset := rfl
@[simp] theorem present_value (ev : Event) : (s.present ev).value = s.value := rfl
@[simp] theorem present_code (ev : Event) : (s.present ev).code = s.code := rfl
@[simp] theorem present_busy (ev : Event) : (s.present ev).busy = s.busy := rfl
@[simp] theorem present_done (ev : Event) : (s.present ev).done = s.done := rfl
@[simp] theorem present_err (ev : Event) : (s.present ev).err = s.err := rfl
@[simp] theorem present_rdata (ev : Event) : (s.present ev).rdata = s.rdata := rfl
@[simp] theorem present_rst (ev : Event) : (s.present ev).rst = s.rst := rfl
@[simp] theorem present_schedule (ev : Event) : (s.present ev).schedule = ev :: s.schedule := rfl

/-! ### The flags of ERR -/

@[simp] theorem set_get_self (f : ErrFlags) (e : Error) : (f.set e).get e = true := by
  cases e <;> rfl

@[simp] theorem set_get_of_ne (f : ErrFlags) {e e' : Error} (h : e' ≠ e) :
    (f.set e).get e' = f.get e' := by
  cases e <;> cases e' <;> first | rfl | exact absurd rfl h

@[simp] theorem clear_get (f : ErrFlags) (m : BitVec 4) (e : Error) :
    (f.clear m).get e = (f.get e && !m.getLsbD e.code) := by
  cases e <;> rfl

@[simp] theorem none_get (e : Error) : ErrFlags.none.get e = false := by cases e <;> rfl

/-! ### The busy lock -/

theorem unlessBusy_idle {s t : State} (h : s.busy = false) : s.unlessBusy t = t := by
  simp [State.unlessBusy, h]

theorem unlessBusy_busy {s t : State} (h : s.busy = true) : s.unlessBusy t = s.raise .busy := by
  simp [State.unlessBusy, h]

/-- A refused write to `CFG` changes `ERR` and nothing else. -/
theorem refuseCfg_eq (a : BitVec 2) (d : BitVec 4) :
    s.refuseCfg a d = { s with
      err := { s.err with
        cfg := s.err.cfg || !validDigits d
        alg := s.err.alg || !validAlg a } } := by
  unfold State.refuseCfg
  cases validDigits d <;> cases validAlg a <;> simp [State.raise, ErrFlags.set]

/-- A write to `CFG` is accepted where both fields are valid and refused otherwise. -/
theorem writeCfg_eq (a : BitVec 2) (d : BitVec 4) :
    s.writeCfg a d =
      if validDigits d = true ∧ validAlg a = true then s.configure a d else s.refuseCfg a d := by
  simp [State.writeCfg]

end Sys2Proof.Machine
end

