-- ==== Sys2Proof/Laws/Step.lean ====
section
/-! SUPPORT. What an instruction, the engine's turn and a step can do, said once: the inversion lemmas
that the invariants and the whole-machine rules are derived from. -/

namespace Sys2Proof.Machine

/-- Everything an instruction can do. -/
theorem exec_cases {i : Instr} {s t : State} (h : exec i s = .next t) :
    (t = s ∧ i.isWrite = true ∧ (lockedSlot i.slot = true → i = .nop ∧ s.busy = false)) ∨
    (∃ w, i.isWrite = false ∧ t = s.respond w) ∨
    (∃ ignored m, i = .wrErr ignored m ∧ t = s.clearFlags m) ∨
    (s.busy = true ∧ i.isWrite = true ∧ lockedSlot i.slot = true ∧ t = s.raise .busy) ∨
    (s.busy = false ∧ i = .trunc ∧ t = s.acceptTrunc) ∨
    (s.busy = false ∧ i = .clear ∧ t = s.scrub) ∨
    (s.busy = false ∧ (∃ data, i = .cmdIllegal data) ∧ t = s.raise .cmd) ∨
    (s.busy = false ∧ ∃ hi a lo d, i = .wrCfg hi a lo d ∧
      validDigits d = true ∧ validAlg a = true ∧ t = s.configure a d) ∨
    (s.busy = false ∧ ∃ hi a lo d, i = .wrCfg hi a lo d ∧
      ¬(validDigits d = true ∧ validAlg a = true) ∧ t = s.refuseCfg a d) ∨
    (s.busy = false ∧ ∃ k b0 b1 b2 b3, i = .wrDigestw k b0 b1 b2 b3 ∧
      t = s.storeDigestw k (digestwData b0 b1 b2 b3)) := by
  cases i with
  | wrErr ignored m =>
    exact .inr (.inr (.inl ⟨ignored, m, rfl, (Host.Outcome.next.inj h).symm⟩))
  | wrStatus | wrOffset | wrValue | wrCode | wrRsvd7 | wrRsvd8to15 =>
    exact .inl ⟨(Host.Outcome.next.inj h).symm, rfl, fun hl => absurd hl Bool.false_ne_true⟩
  | rdCmd | rdStatus | rdErr | rdCfg | rdOffset | rdValue | rdCode | rdRsvd7 | rdRsvd8to15
  | rdDigestw =>
    exact .inr (.inl ⟨_, rfl, (Host.Outcome.next.inj h).symm⟩)
  | nop | trunc | clear | cmdIllegal | wrCfg | wrDigestw =>
    replace h := (Host.Outcome.next.inj h).symm
    cases hb : s.busy with
    | true =>
      rw [unlessBusy_busy hb] at h
      exact .inr (.inr (.inr (.inl ⟨rfl, rfl, rfl, h⟩)))
    | false =>
      rw [unlessBusy_idle hb] at h
      first
        | exact .inl ⟨h, rfl, fun _ => ⟨rfl, rfl⟩⟩
        | (rw [writeCfg_eq] at h
           split_ifs at h with hv
           · simp_all
           · simp_all)
        | simp_all

/-- Every instruction completes, in every state. -/
theorem exec_completes (i : Instr) (s : State) : ∃ t, exec i s = .next t := by
  cases i <;> exact ⟨_, rfl⟩

/-- An instruction leaves the reset input and the moves to come alone. -/
theorem exec_environment {i : Instr} {s t : State} (h : exec i s = .next t) :
    t.rst = s.rst ∧ t.schedule = s.schedule := by
  rcases exec_cases h with ⟨rfl, -⟩ | ⟨w, -, rfl⟩ | ⟨_, m, -, rfl⟩ | ⟨-, -, -, rfl⟩ | ⟨-, -, rfl⟩
    | ⟨-, -, rfl⟩ | ⟨-, -, rfl⟩ | ⟨-, _, _, _, _, -, -, -, rfl⟩ | ⟨-, _, _, _, _, -, -, rfl⟩
    | ⟨-, _, _, _, _, _, -, rfl⟩ <;> simp [refuseCfg_eq]

/-- Everything the engine's turn can do. -/
theorem engineTurn_cases {s t : State} (h : engineTurn s = .next t) :
    (s.busy = false ∧ t = s) ∨
    (s.busy = true ∧ ∃ r, truncate s.digest s.alg s.digits = .ok r ∧
      t = s.finish r.offset r.value r.code) := by
  unfold engineTurn complete at h
  cases hb : s.busy with
  | false => simp_all
  | true =>
    simp only [hb, if_true] at h
    cases ht : truncate s.digest s.alg s.digits with
    | ok r => simp_all
    | error f => simp_all

/-- The truncation of a legal configuration is defined. -/
theorem truncate_ok {d : Memory} {a : BitVec 2} {n : BitVec 4} {len : Nat} (ha : dlen a = some len)
    (hn : validDigits n = true) : truncate d a n = .ok (truncateLen d len n) := by
  simp [truncate, ha, hn]

/-- What a defined truncation is. -/
theorem truncate_cases {d : Memory} {a : BitVec 2} {n : BitVec 4} {r : Truncation}
    (h : truncate d a n = .ok r) :
    ∃ len, dlen a = some len ∧ validDigits n = true ∧ r = truncateLen d len n := by
  unfold truncate at h
  split at h
  · simp at h
  · rename_i len hl
    split_ifs at h with hn
    exact ⟨len, hl, hn, (Except.ok.inj h).symm⟩

/-- A transaction runs the instruction it decodes to, outside reset. -/
theorem hostTransaction_of_decode {t : TWord} {i : Instr} {s : State} (hr : s.rst = false)
    (hd : decode t = .ok i) : hostTransaction t s = exec i s := by
  simp [hostTransaction, hr, hd]

/-- What a transaction that answers a next state did. -/
theorem hostTransaction_cases {w : TWord} {s t : State} (h : hostTransaction w s = .next t) :
    s.rst = false ∧ ∃ i, decode w = .ok i ∧ exec i s = .next t := by
  unfold hostTransaction at h
  cases hr : s.rst with
  | true => simp [hr] at h
  | false =>
    cases hd : decode w with
    | error e => simp [hr, hd] at h
    | ok i => exact ⟨rfl, i, rfl, by simpa [hr, hd] using h⟩

/-- Everything a step can do: an instruction of the host, the engine's turn, or a change of `rst`. -/
theorem step_cases {s t : State} (h : step s = .next t) :
    (∃ i, nextInstr s = some i ∧ s.rst = false ∧ exec i s.dequeue = .next t) ∨
    (nextEvent s = .engine ∧ engineTurn s.dequeue = .next t) ∨
    (nextEvent s = .rst true ∧ t = s.dequeue.assertReset) ∨
    (nextEvent s = .rst false ∧ t = s.dequeue.releaseReset) := by
  unfold step at h
  cases he : nextEvent s with
  | transaction w =>
    rw [he] at h
    obtain ⟨hr, i, hd, hi⟩ := hostTransaction_cases h
    exact .inl ⟨i, by simp [nextInstr, transactionOf, he, hd, Except.toOption], hr, hi⟩
  | access a =>
    rw [he] at h
    simp only [perform, hostAccess] at h
    cases ha : accessWord a with
    | none => simp [ha] at h
    | some w =>
      rw [ha] at h
      obtain ⟨hr, i, hd, hi⟩ := hostTransaction_cases h
      exact .inl ⟨i, by simp [nextInstr, transactionOf, he, ha, hd, Except.toOption], hr, hi⟩
  | engine =>
    rw [he] at h
    exact .inr (.inl ⟨rfl, h⟩)
  | rst asserted =>
    rw [he] at h
    cases asserted with
    | true => exact .inr (.inr (.inl ⟨rfl, (Host.Outcome.next.inj h).symm⟩))
    | false => exact .inr (.inr (.inr ⟨rfl, (Host.Outcome.next.inj h).symm⟩))

/-- Every step takes one move off the schedule. -/
theorem step_schedule {s t : State} (h : step s = .next t) : t.schedule = s.schedule.tail := by
  rcases step_cases h with ⟨i, -, -, hx⟩ | ⟨-, hx⟩ | ⟨-, rfl⟩ | ⟨-, rfl⟩
  · rw [(exec_environment hx).2, dequeue_schedule]
  · rcases engineTurn_cases hx with ⟨-, rfl⟩ | ⟨-, r, -, rfl⟩ <;> rfl
  · rfl
  · rfl

/-! ### Runs of the machine behind the host's interface, one step unfolded -/

theorem coreRun_next (M : Host.Core) {s t : M.State} (k : Nat) (h : M.step s = .next t) :
    M.run (k + 1) s = M.run k t := by
  simp only [Host.Core.run, h]

theorem coreRun_fault (M : Host.Core) {s : M.State} {f : M.Fault} (k : Nat)
    (h : M.step s = .fault f) : M.run (k + 1) s = .fault f := by
  simp only [Host.Core.run, h]

theorem coreRun_refused (M : Host.Core) {s : M.State} {r : M.Refusal} (k : Nat)
    (h : M.step s = .refused r) : M.run (k + 1) s = .refused r := by
  simp only [Host.Core.run, h]

theorem run_of_next {s t : State} (k : Nat) (h : step s = .next t) :
    core.run (k + 1) s = core.run k t :=
  coreRun_next core k h

theorem run_of_fault {s : State} {f : Fault} (k : Nat) (h : step s = .fault f) :
    core.run (k + 1) s = .fault f :=
  coreRun_fault core k h

theorem run_of_refused {s : State} {r : Refusal} (k : Nat) (h : step s = .refused r) :
    core.run (k + 1) s = .refused r :=
  coreRun_refused core k h

end Sys2Proof.Machine
end

