-- ==== Sys2Proof/Laws/Pseudo.lean ====
section
/-! SUPPORT. What one turn of a driver's run does: a presented move is the next step's move, the driver's
turn is its line's transaction, and the engine's turn is the engine's. -/

namespace Sys2Proof.Machine

/-- The step after a move was presented makes that move, with the rest of the schedule left. -/
theorem step_present (s : State) (e : Event) :
    step (s.present e) = perform e { s with rdata := none } := rfl

/-- A turn of a driver at the end of its program. -/
@[simp] theorem takeTurn_driver_nil {d : Driver} (h : d.program = []) :
    takeTurn .driver d = .next d := by
  simp [takeTurn, issueNext, h]

/-- The driver's turn runs its line's instruction, outside reset and where the line's word decodes to it. -/
theorem takeTurn_driver {d : Driver} {op : DriverOp} {rest : List DriverOp}
    (hp : d.program = op :: rest) (hr : d.machine.rst = false)
    (hd : decode (encode op.transaction) = .ok op.transaction) :
    takeTurn .driver d
      = afterMove (exec op.transaction { d.machine with rdata := none }) (d.advance op rest) := by
  simp only [takeTurn, issueNext, hp]
  exact congrArg (afterMove · _) (hostTransaction_of_decode hr hd)

/-- The engine's turn in a run of a driver. -/
theorem takeTurn_engine (d : Driver) :
    takeTurn (.other .engine) d
      = afterMove (engineTurn { d.machine with rdata := none }) fun t => { d with machine := t } :=
  rfl

theorem afterMove_next {o : Host.Outcome State Fault Refusal} {f : State → Driver} {d : Driver}
    (h : afterMove o f = .next d) : ∃ t, o = .next t ∧ d = f t := by
  cases o with
  | next t => exact ⟨t, rfl, (Host.Outcome.next.inj h).symm⟩
  | fault e => exact absurd h (by simp [afterMove])
  | refused r => exact absurd h (by simp [afterMove])

/-- A run over the turns of two lists is the run over the second from where the first leaves off. -/
theorem drive_append (ts us : List Turn) {d d' : Driver} (h : drive ts d = .next d') :
    drive (ts ++ us) d = drive us d' := by
  induction ts generalizing d with
  | nil => rw [List.nil_append, ← Host.Outcome.next.inj h]
  | cons t ts ih =>
    simp only [drive, List.cons_append] at h ⊢
    cases ht : takeTurn t d with
    | next d₁ => exact ih (by simpa only [ht] using h)
    | fault f => simp [ht] at h
    | refused r => simp [ht] at h

@[simp] theorem drive_nil (d : Driver) : drive [] d = .next d := rfl

theorem drive_cons {t : Turn} {d d' : Driver} (ts : List Turn) (h : takeTurn t d = .next d') :
    drive (t :: ts) d = drive ts d' := by
  simp [drive, h]

/-- A transaction's line is done with after its turn. -/
@[simp] theorem ended_instr (i : Instr) (a : Option Word) : (DriverOp.instr i).ended a = true := rfl

@[simp] theorem ended_wait (w : Word) : DriverOp.wait.ended (some w) = !w.getLsbD 0 := rfl

@[simp] theorem advance_machine (d : Driver) (op : DriverOp) (rest : List DriverOp) (t : State) :
    (d.advance op rest t).machine = t := rfl

end Sys2Proof.Machine
end

