-- ==== Sys2Proof/Tests/Slice0.lean ====
section
/-! SUPPORT. The model's own tests: the words and values of spec/95_test_vectors.md and of the examples in
the rules, each on one step; and, for each statement with hypotheses, a state and operands that meet
them. -/

namespace Sys2Proof.Tests

open Sys2Proof.Machine

/-! ### Helpers -/

/-- A digest buffer from its 32-bit words in order, as `LDDIG` loads it. -/
def bufferOf (words : List Nat) : Memory :=
  (words.zipIdx.map fun p => (4 * p.2, p.1)).foldl (fun m p => memWrite m p.1 4 p.2) []

/-- Whether an outcome is a next state of which a check holds. -/
def nextIs (o : Host.Outcome State Fault Refusal) (p : State → Bool) : Bool :=
  match o with
  | .next t => p t
  | .fault _ => false
  | .refused _ => false

/-- Whether an outcome is the refusal given. -/
def refusedIs (o : Host.Outcome State Fault Refusal) (r : Refusal) : Bool :=
  match o with
  | .next _ => false
  | .fault _ => false
  | .refused r' => r == r'

theorem next_of_nextIs {o : Host.Outcome State Fault Refusal} {p : State → Bool}
    (h : nextIs o p = true) : ∃ t, o = .next t ∧ p t = true := by
  cases o with
  | next t => exact ⟨t, rfl, h⟩
  | fault f => exact absurd h Bool.false_ne_true
  | refused r => exact absurd h Bool.false_ne_true

/-- The digest of vector S1. -/
def digestS1 : Memory := bufferOf [0xCC93CF18, 0x508D9493, 0x4C64B65D, 0x8BA7667F, 0xB7CDE4B0]

/-- An idle machine with the S1 digest loaded. -/
def loaded : State := { State.reset with digest := digestS1 }

/-- A busy machine with the S1 digest. -/
def running : State := { loaded with busy := true }

/-- The machine after the completion of S1. -/
def finished : State :=
  { loaded with offset := 0, value := 0x4C93CF18, code := 755224, done := true }

/-- A machine with every error flag set. -/
def flagged : State :=
  { State.reset with err := { cfg := true, alg := true, cmd := true, busy := true } }

/-! ### WellFormed refuses an ill-formed term -/

theorem test_wellFormed_refuses_nop_word : (Instr.cmdIllegal 0).wellFormed = false := by decide

theorem test_wellFormed_refuses_trunc_word : (Instr.cmdIllegal 1).wellFormed = false := by decide

theorem test_wellFormed_refuses_clear_word : (Instr.cmdIllegal 2).wellFormed = false := by decide

/-! ### Decoding: a word of every row, written out from its pattern (R61, R66) -/

theorem test_decode_commands :
    decode 0b10000000000000000000000000000000000000 = .ok .nop ∧
    decode 0b10000000000000000000000000000000000001 = .ok .trunc ∧
    decode 0b10000000000000000000000000000000000010 = .ok .clear ∧
    decode 0b10000000000000000000000000000000000011 = .ok (.cmdIllegal 3) ∧
    decode 0b10000000000000000000000000000000010001 = .ok (.cmdIllegal 0x11) := by decide

theorem test_decode_writes :
    decode 0b10000100000000000000000000000000000101 = .ok (.wrStatus 5) ∧
    decode 0b10001011111111111111111111111111110000 = .ok (.wrErr 0xFFFFFFF 0) ∧
    decode 0b10001111111111111111111111110000000111 = .ok (.wrCfg 0x3FFFFF 0 0 7) ∧
    decode 0b10001100000000000000000000001011110110 = .ok (.wrCfg 0 2 0xF 6) ∧
    decode 0b10010010000000000000000000000000000001 = .ok (.wrOffset 0x80000001) ∧
    decode 0b10010110000000000000000000000000000001 = .ok (.wrValue 0x80000001) ∧
    decode 0b10011010000000000000000000000000000001 = .ok (.wrCode 0x80000001) ∧
    decode 0b10011110000000000000000000000000000001 = .ok (.wrRsvd7 0x80000001) ∧
    decode 0b10110110000000000000000000000000000001 = .ok (.wrRsvd8to15 5 0x80000001) ∧
    decode 0b11111110101010101110111100110011011101
      = .ok (.wrDigestw 15 0xAA 0xBB 0xCC 0xDD) := by decide

theorem test_decode_reads :
    decode 0b00000000000000000000000000000000000000 = .ok .rdCmd ∧
    decode 0b00000100000000000000000000000000000000 = .ok .rdStatus ∧
    decode 0b00001000000000000000000000000000000000 = .ok .rdErr ∧
    decode 0b00001100000000000000000000000000000000 = .ok .rdCfg ∧
    decode 0b00010000000000000000000000000000000000 = .ok .rdOffset ∧
    decode 0b00010100000000000000000000000000000000 = .ok .rdValue ∧
    decode 0b00011000000000000000000000000000000000 = .ok .rdCode ∧
    decode 0b00011100000000000000000000000000000000 = .ok .rdRsvd7 ∧
    decode 0b00100100000000000000000000000000000000 = .ok (.rdRsvd8to15 1) ∧
    decode 0b01110000000000000000000000000000000000 = .ok (.rdDigestw 12) ∧
    decode 0b01110000000000000000000000000000000001 = .error .readDataNotZero := by decide

theorem test_encode_trace_words :
    encode (.wrCfg 0 1 0 8) = 0x2300000108 ∧
    encode (.wrErr 0 0xF) = 0x220000000F ∧
    encode (.wrDigestw 1 0x50 0x8D 0x94 0x93) = 0x31508D9493 ∧
    encode (.wrRsvd8to15 0 5) = 0x2800000005 ∧
    encode (.rdDigestw 15) = 0x1F00000000 := by decide

theorem test_decodeTableWord :
    decodeTableWord 40 0x2000000001 = some .trunc ∧
    decodeTableWord 40 0x4000000001 = none := by decide

/-! ### The digest buffer (R44, R45, trace V-DIG) -/

theorem test_words_are_big_endian :
    (bufferOf [0x01020304]).read 0 = 0x01 ∧ (bufferOf [0x01020304]).read 3 = 0x04 := by decide

theorem test_window_straddles_words :
    windowOf (bufferOf [0, 0, 0x11223344, 0x55667788]) 10 = 0x33445566 := by decide

theorem test_zero_byte_is_unlisted : (bufferOf [0x11000000]).write 0 0 = [] := by decide

/-! ### The datapath (vectors S1, S14, T2, T3, T8, B0, B1) -/

theorem test_truncate_S1 : truncate digestS1 0 6 = .ok ⟨0x0, 0x4C93CF18, 755224⟩ := by decide

theorem test_truncate_S14 :
    truncate (bufferOf [0x6F76F324, 0x230CEFDA, 0x1D3F6530, 0x9A0BADB3, 0x6EFCE952, 0x8ADA6496,
      0x7D71E4E9, 0xD74C4AA3, 0x7FE7650F, 0x931AB86D, 0xDCCC2D38, 0x962D720E, 0xE626A20F,
      0xEB311B48, 0x5A92E3BB, 0x0796DF28]) 2 8 = .ok ⟨0x8, 0x1D3F6530, 90693936⟩ := by decide

theorem test_truncate_T2 :
    truncate (bufferOf [0, 0, 0, 0x000000FF, 0xFFFFFF0F]) 0 8
      = .ok ⟨0xF, 0x7FFFFFFF, 47483647⟩ := by decide

theorem test_truncate_T3 :
    truncate (bufferOf [0x80000000, 0, 0, 0, 0x000000F0]) 0 6 = .ok ⟨0, 0, 0⟩ := by decide

theorem test_truncate_T8 :
    truncate (bufferOf [0, 0, 0x00989680, 0, 0x000000F8]) 0 7 = .ok ⟨8, 10000000, 0⟩ ∧
    truncate (bufferOf [0, 0, 0x00989680, 0, 0x000000F8]) 0 8 = .ok ⟨8, 10000000, 10000000⟩ := by
  decide

/-- Buffer B of the algorithm vectors, its first 32 bytes. -/
def bufferB : Memory :=
  bufferOf [0x9E99948F, 0x8A85807B, 0x76716C67, 0x625D5853, 0x4E49443F, 0x3A35302B, 0x26211C17,
    0x120D0803]

theorem test_truncate_B0 : truncate bufferB 0 6 = .ok ⟨0xF, 1397639492, 639492⟩ := by decide

theorem test_truncate_B1 : truncate bufferB 1 8 = .ok ⟨0x3, 260736384, 60736384⟩ := by decide

theorem test_truncate_reserved_algorithm : truncate digestS1 3 6 = .error .algorithmReserved := by
  decide

/-! ### Instructions, one step each (the examples of the rules and the traces of section 5) -/

theorem test_nop_keeps_done : nextIs (exec .nop finished) (fun t => t == finished) = true := by
  decide

theorem test_trunc_sets_busy :
    nextIs (exec .trunc finished) (fun t => t.busy && !t.done && t.code == 755224) = true := by
  decide

theorem test_clear_scrubs :
    nextIs (exec .clear finished)
      (fun t => t.digest == [] && t.code == 0 && t.value == 0 && !t.done) = true := by decide

theorem test_clear_while_busy :
    nextIs (exec .clear running) (fun t => t.err.busy && t.digest == digestS1) = true := by decide

theorem test_illegal_sets_errCmd :
    nextIs (exec (.cmdIllegal 3) finished) (fun t => t.err.cmd && t.done && !t.busy) = true := by
  decide

theorem test_illegal_while_busy :
    nextIs (exec (.cmdIllegal 3) running) (fun t => t.err.busy && !t.err.cmd) = true := by decide

theorem test_wrStatus_ignored :
    nextIs (exec (.wrStatus 0xFFFFFFFF) running) (fun t => t == running) = true := by decide

theorem test_wrErr_clears_selected :
    nextIs (exec (.wrErr 0 0b1000) flagged) (fun t => errWord t.err == 0x7) = true := by decide

theorem test_wrErr_ignores_upper_bits :
    nextIs (exec (.wrErr 0xFFFFFFF 0) flagged) (fun t => errWord t.err == 0xF) = true := by decide

theorem test_wrCfg_accepts_0x108 :
    nextIs (exec (.wrCfg 0 1 0 8) finished)
      (fun t => cfgWord t.alg t.digits == 0x108 && !t.done && t.code == 755224) = true := by decide

theorem test_wrCfg_refuses_0x309 :
    nextIs (exec (.wrCfg 0 3 0 9) finished)
      (fun t => errWord t.err == 0x3 && cfgWord t.alg t.digits == 0x6 && t.done) = true := by decide

theorem test_wrOffset_ignored :
    nextIs (exec (.wrOffset 0xFFFFFFFF) finished) (fun t => t == finished) = true := by decide

theorem test_wrValue_ignored :
    nextIs (exec (.wrValue 0xFFFFFFFF) finished) (fun t => t == finished) = true := by decide

theorem test_wrCode_ignored :
    nextIs (exec (.wrCode 0xFFFFFFFF) finished) (fun t => t == finished) = true := by decide

theorem test_wrRsvd7_ignored :
    nextIs (exec (.wrRsvd7 0xFFFFFFFF) finished) (fun t => t == finished) = true := by decide

theorem test_wrRsvd8to15_ignored :
    nextIs (exec (.wrRsvd8to15 0 5) running) (fun t => t == running) = true := by decide

theorem test_wrDigestw_stores :
    nextIs (exec (.wrDigestw 3 0xAA 0xBB 0xCC 0xDD) finished)
      (fun t => t.digest.read 12 == 0xAA && t.digest.read 15 == 0xDD && t.digest.read 11 == 0x5D
        && !t.done) = true := by decide

theorem test_wrDigestw_while_busy :
    nextIs (exec (.wrDigestw 0 0x12 0x34 0x56 0x78) running)
      (fun t => errWord t.err == 0x8 && t.digest == digestS1) = true := by decide

theorem test_rdCmd : nextIs (exec .rdCmd running) (fun t => t.rdata == some 0) = true := by decide

theorem test_rdStatus :
    nextIs (exec .rdStatus running) (fun t => t.rdata == some 1) = true ∧
    nextIs (exec .rdStatus finished) (fun t => t.rdata == some 2) = true := by decide

theorem test_rdErr :
    nextIs (exec .rdErr { State.reset with err := { ErrFlags.none with cmd := true } })
      (fun t => t.rdata == some 4) = true := by decide

theorem test_rdCfg :
    nextIs (exec .rdCfg { State.reset with alg := 2, digits := 7 })
      (fun t => t.rdata == some 0x207) = true := by decide

theorem test_rdOffset :
    nextIs (exec .rdOffset { State.reset with offset := 0xB }) (fun t => t.rdata == some 0xB)
      = true := by decide

theorem test_rdValue :
    nextIs (exec .rdValue finished) (fun t => t.rdata == some 0x4C93CF18) = true := by decide

theorem test_rdCode :
    nextIs (exec .rdCode finished) (fun t => t.rdata == some 0x000B8618) = true := by decide

theorem test_rdRsvd :
    nextIs (exec .rdRsvd7 finished) (fun t => t.rdata == some 0) = true ∧
    nextIs (exec (.rdRsvd8to15 7) finished) (fun t => t.rdata == some 0) = true := by decide

theorem test_rdDigestw :
    nextIs (exec (.rdDigestw 1) running) (fun t => t.rdata == some 0x508D9493) = true := by decide

/-! ### The engine, reset, and what a step does -/

theorem test_completion_S1 :
    nextIs (engineTurn running) (fun t => t == finished) = true := by decide

theorem test_step_with_nothing_scheduled_completes :
    nextIs (step running) (fun t => t.done && t.code == 755224) = true := by decide

theorem test_step_runs_fetched_word :
    nextIs (step (State.reset.withFetchWord 40 0x2000000001)) (fun t => t.busy) = true := by decide

theorem test_reset_while_busy :
    nextIs (step (running.present (.rst true)))
      (fun t => !t.busy && t.rst && t.digest == [] && t.code == 0) = true := by decide

theorem test_transaction_under_reset :
    refusedIs (step ({ State.reset with rst := true }.present (.transaction 0x0100000000)))
      .transactionDuringReset = true := by decide

theorem test_undecodable_word :
    refusedIs (step (State.reset.present (.transaction 0x0100000001)))
      (.undecodable .readDataNotZero) = true := by decide

theorem test_narrow_access_refused :
    refusedIs (step (State.reset.present
      (.access { write := true, addr := 0, bytes := 2, data := 0 }))) .inexpressibleAccess
      = true := by
  simp [step, nextEvent, State.present, perform, hostAccess, accessWord, accessOffset, refusedIs]

theorem test_lddig_expansion :
    lddig [0xCC, 0x93, 0xCF, 0x18, 0x50, 0x8D, 0x94, 0x93]
      = [.wrDigestw 0 0xCC 0x93 0xCF 0x18, .wrDigestw 1 0x50 0x8D 0x94 0x93] := by decide

/-- R74's expansion of `TRUNCATE`, on the first word of S1. -/
theorem test_truncate_expansion :
    truncateSequence [0xCC, 0x93, 0xCF, 0x18] 8 .sha512
      = [.instr (.wrCfg 0 2 0 8), .instr (.wrDigestw 0 0xCC 0x93 0xCF 0x18), .instr .trunc, .wait,
        .instr .rdCode] := by decide

/-- Whether a run of a driver ends with the given program left and the given trace. -/
def drivesTo (o : Host.Outcome Driver Fault Refusal) (program : List DriverOp)
    (trace : List (Slot × Word)) : Bool :=
  match o with
  | .next d => d.program == program && d.trace == trace
  | .fault _ => false
  | .refused _ => false

/-- `WAIT` reads once more after a read with `BUSY` = 1, and ends with the read after the completion (R74,
R85). -/
theorem test_wait_repeats :
    drivesTo (drive [.driver, .other .engine, .driver] (Driver.start [.wait, .instr .rdCode] running))
      [.instr .rdCode] [(.status, 0x1), (.status, 0x2)] = true := by decide

/-- `WAIT` on an idle machine reads at least once (R74). -/
theorem test_wait_reads_once :
    drivesTo (drive [.driver] (Driver.start [.wait] loaded)) [] [(.status, 0x0)] = true := by decide

/-! ### Witnesses: the hypotheses of each statement can be met, each clause at a boundary -/

theorem wf_digestS1 : digestS1.wf := by decide

/-- The invariant with an operation in flight (RunsFromTheInvariantNeverFault, StepKeepsTheInvariant,
EngineFinishesWhenTheScheduleEnds). -/
theorem witness_inv_running : Inv running where
  digest_wf := by decide
  digits_legal := by decide
  alg_legal := by decide
  done_idle := by decide
  done_results := by decide
  code_max := by decide
  code_le_value := by decide
  under_reset := by decide

/-- The invariant with `DONE` set (StatusReadGivesBusyAndDone, CfgReadGivesDigitsAndAlg,
ResultReadsAreZeroExtended, DoneMeansTheResultsMatch). -/
theorem witness_inv_done : Inv finished ∧ finished.done = true where
  left := {
    digest_wf := by decide
    digits_legal := by decide
    alg_legal := by decide
    done_idle := by decide
    done_results := by decide
    code_max := by decide
    code_le_value := by decide
    under_reset := by decide }
  right := rfl

/-- A machine under reset, `rst` about to be released. -/
def underReset : State := { State.reset with rst := true, schedule := [.rst false] }

/-- NoTransactionUnderReset, the three clauses. -/
theorem witness_under_reset :
    (Inv underReset ∧ underReset.rst = true ∧ underReset.schedule = [.rst false]) ∧
    (∃ s : State, s.rst = true ∧ s.schedule = [.transaction 0x2000000001]) ∧
    ∃ (s : State) (a : Access) (w : TWord),
      s.rst = true ∧ accessWord a = some w ∧ s.schedule = [.access a] := by
  refine ⟨⟨⟨by decide, by decide, by decide, by decide, by decide, by decide, by decide,
    by decide⟩, rfl, rfl⟩, ⟨{ State.reset with rst := true, schedule := _ }, rfl, rfl⟩,
    { State.reset with
      rst := true
      schedule := [.access { write := false, addr := Config.base + 0x7C, bytes := 4, data := 0 }] },
    _, wordAtOffset false 0x7C 0, rfl, ?_, rfl⟩
  simp [accessWord, accessOffset, Config.windowSize]

/-- DecodeOfEncodeIsIdentity, IllegalCommandOnlySetsErrCmd, ErrorsFollowTheirCauses. -/
theorem witness_wellFormed :
    (Instr.cmdIllegal 3).wellFormed = true ∧ (Instr.cmdIllegal 0xFFFFFFFF).wellFormed = true ∧
    (Instr.wrDigestw 15 0xFF 0 0 0xFF).wellFormed = true := by decide

/-- EncodeOfDecodeIsIdentity, PlacedWordRunsNext, StepRunsTheDecodedInstruction (both clauses). -/
theorem witness_decode :
    decode 0x2000000000 = .ok .nop ∧ decode 0x3FFFFFFFFF = .ok (.wrDigestw 15 0xFF 0xFF 0xFF 0xFF) ∧
    decode 0x00FFFFFFFF = .error .readDataNotZero ∧
    decodeTableWord 40 0x1F00000000 = some (.rdDigestw 15) ∧
    (loaded.present (.transaction 0x2000000000)).rst = false := by decide

/-- TransactionWordFormula: the first and the last offset. -/
theorem witness_offsets : (0 % 4 = 0 ∧ 0 ≤ 0x7C) ∧ (0x7C % 4 = 0 ∧ 0x7C ≤ 0x7C) := by decide

/-- OnlyWholeAlignedWordsAreServed: a served access at the last slot; a refused one that is narrow, one
that is misaligned, one just past the window. -/
theorem witness_accesses :
    (∃ (s : State) (a : Access), nextEvent s = .access a ∧ a.addr = Config.base + 0x7C ∧
      a.bytes = 4) ∧
    (∃ a : Access, ∀ off, a.addr = Config.base + off → off % 4 = 0 → off ≤ 0x7C → a.bytes ≠ 4) ∧
    (∃ a : Access, a.bytes = 4 ∧
      ∀ off, a.addr = Config.base + off → off % 4 = 0 → off ≤ 0x7C → a.bytes ≠ 4) ∧
    ∃ a : Access, a.bytes = 4 ∧ a.addr = Config.base + 0x80 ∧
      ∀ off, a.addr = Config.base + off → off % 4 = 0 → off ≤ 0x7C → a.bytes ≠ 4 := by
  refine ⟨⟨loaded.present
      (.access { write := false, addr := Config.base + 0x7C, bytes := 4, data := 0 }), _,
      rfl, rfl, rfl⟩,
    ⟨{ write := true, addr := Config.base, bytes := 2, data := 0 }, fun _ _ _ _ => by decide⟩,
    ⟨{ write := true, addr := Config.base + 2, bytes := 4, data := 0 }, rfl, fun off h h4 _ => ?_⟩,
    ⟨{ write := true, addr := Config.base + 0x80, bytes := 4, data := 0 }, rfl, rfl,
      fun off h _ hle => ?_⟩⟩ <;> simp only at h <;> omega

/-- The writes a busy machine rejects: one to each kind of locked slot (WriteWhileBusyOnlySetsErrBusy, and
the busy clauses of NopKeepsEverything, TruncIsAcceptedAtIdle, ClearScrubsDigestAndResults and
IllegalCommandOnlySetsErrCmd). -/
theorem witness_busy_writes :
    running.busy = true ∧
    (Instr.nop.isWrite = true ∧ Instr.nop.slot = .cmd) ∧
    ((Instr.wrCfg 0 0 0 6).isWrite = true ∧ (Instr.wrCfg 0 0 0 6).slot = .cfg) ∧
    ((Instr.wrDigestw 15 0 0 0 0).isWrite = true ∧
      (Instr.wrDigestw 15 0 0 0 0).slot = .digestw 15) := by decide

/-- An idle machine outside reset (CommandWordAtIdle, NopKeepsEverything, TruncIsAcceptedAtIdle,
ClearScrubsDigestAndResults, DigestWordWriteStoresFourBytes), and the words on both sides of the legal
commands. -/
theorem witness_idle :
    loaded.busy = false ∧ loaded.rst = false ∧ loaded.digest.wf ∧
    validDigits loaded.digits = true ∧ validAlg loaded.alg = true ∧
    ((3 : Word) ≠ 0 ∧ (3 : Word) ≠ 1 ∧ (3 : Word) ≠ 2) := by decide

/-- ReadsChangeNothing. -/
theorem witness_read : (Instr.rdDigestw 15).isWrite = false := by decide

/-- CfgWriteIsValidated: each clause at the ends of its range. -/
theorem witness_cfg_values :
    (∃ d : BitVec 4, d = 6 ∧ validDigits d = true) ∧
    (∃ d : BitVec 4, d = 8 ∧ validDigits d = true) ∧
    (∃ d : BitVec 4, d ≠ 6 ∧ d ≠ 7 ∧ d ≠ 8 ∧ d = 5) ∧
    (∃ d : BitVec 4, d ≠ 6 ∧ d ≠ 7 ∧ d ≠ 8 ∧ d = 9) ∧
    (∃ a : BitVec 2, a = 2 ∧ validAlg a = true) ∧
    ∃ a : BitVec 2, a = 3 ∧ validAlg a = false := by
  exact ⟨⟨6, by decide⟩, ⟨8, by decide⟩, ⟨5, by decide⟩, ⟨9, by decide⟩, ⟨2, by decide⟩,
    ⟨3, by decide⟩⟩

/-- DigestWordReadsBack. -/
theorem witness_write_then_read :
    loaded.busy = false ∧ loaded.digest.wf ∧ (14 : BitVec 4) ≠ 15 ∧
    (∃ t, exec (.wrDigestw 15 0xAA 0xBB 0xCC 0xDD) loaded = .next t) ∧
    ∃ w, exec (.rdDigestw 14) loaded = .next { loaded with rdata := some w } :=
  ⟨rfl, by decide, by decide, ⟨_, rfl⟩, _, rfl⟩

/-- LoadedDigestStandsInTheBuffer: the three lengths. -/
theorem witness_digest_lengths :
    loaded.busy = false ∧ loaded.digest.wf ∧
    (List.replicate 20 (0xFF : Byte)).length = 20 ∧
    (List.replicate 32 (0xFF : Byte)).length = 32 ∧
    (List.replicate 64 (0xFF : Byte)).length = 64 := by decide

/-- MemReadIsTheBigEndianSum, MemWriteStoresBigEndianBytes: one byte and four at the end of the buffer. -/
theorem witness_mem_access :
    digestS1.wf ∧ (1 ≤ 1 ∧ 1 ≤ 4 ∧ 63 + 1 - 1 ≤ 63 ∧ 255 < 256 ^ 1) ∧
    (1 ≤ 4 ∧ 4 ≤ 4 ∧ 60 + 4 - 1 ≤ 63 ∧ 0xFFFFFFFF < 256 ^ 4) := by decide

/-- EqualBuffersAreEqualData. -/
theorem witness_equal_buffers :
    digestS1.wf ∧ (digestS1.write 20 0).wf ∧
      ∀ i, i < 64 → digestS1.read i = (digestS1.write 20 0).read i := by decide

/-- WindowStraddlesTwoWords: the ends of both clauses. -/
theorem witness_window_offsets :
    (0 : BitVec 4).toNat % 4 = 0 ∧ (12 : BitVec 4).toNat % 4 = 0 ∧
    (1 : BitVec 4).toNat % 4 ≠ 0 ∧ (15 : BitVec 4).toNat % 4 ≠ 0 := by decide

/-- CompletionWritesTheResults, IdleEngineChangesNothing, DatapathComputesTheSourceSteps. -/
theorem witness_completion :
    (running.busy = true ∧ validDigits running.digits = true ∧ validAlg running.alg = true) ∧
    (loaded.busy = false ∧ validDigits loaded.digits = true ∧ validAlg loaded.alg = true) ∧
    ((6 : BitVec 4) = 6 ∧ (8 : BitVec 4) = 8) := by decide

/-- The S1 digest as bytes. -/
def bytesS1 : List Byte :=
  [0xCC, 0x93, 0xCF, 0x18, 0x50, 0x8D, 0x94, 0x93, 0x4C, 0x64, 0xB6, 0x5D, 0x8B, 0xA7, 0x66, 0x7F,
    0xB7, 0xCD, 0xE4, 0xB0]

/-- TruncComputesTheSourceTruncate. -/
theorem witness_source_truncate :
    loaded.busy = false ∧ bytesS1.length = 20 ∧
    (∀ i, i < 20 → loaded.digest.read i = bytesS1.getD i 0) ∧
    dlen loaded.alg = some bytesS1.length ∧ loaded.digits.toNat = 6 := by decide

/-- The source's arithmetic gives the source's code for S1 (counter 0 of RFC 4226). -/
theorem test_sourceTruncate_S1 : sourceTruncate bytesS1 6 = 755224 := by decide

/-- OnlyTheSelectedBytesMatter: vectors T11 and T12 (bit 7 of the first window byte), and two buffers that
differ at byte 20 alone. -/
theorem witness_irrelevant_bytes :
    (dlen 0 = some 20 ∧
      (bufferOf [0xCC93CF18]).read 19 = (bufferOf [0x4C93CF18]).read 19 ∧
      ((bufferOf [0xCC93CF18]).read 0).extractLsb' 0 7
        = ((bufferOf [0x4C93CF18]).read 0).extractLsb' 0 7 ∧
      (∀ j, j < 4 → 1 ≤ j →
        (bufferOf [0xCC93CF18]).read j = (bufferOf [0x4C93CF18]).read j) ∧
      bufferOf [0xCC93CF18] ≠ bufferOf [0x4C93CF18]) ∧
    ((∀ i, i < 64 → (i ≤ 19 ∨ i = 31 ∨ i = 63) →
        digestS1.read i = (digestS1.write 20 0xFF).read i) ∧
      digestS1 ≠ digestS1.write 20 0xFF) := by decide

/-- TruncationIsRepeatable: two different busy states with the same digest, algorithm and digits. -/
theorem witness_repeatable :
    running.busy = true ∧ { running with code := 5, err := flagged.err }.busy = true ∧
    running ≠ { running with code := 5, err := flagged.err } ∧
    (∃ t, engineTurn running = .next t) ∧
    ∃ t, engineTurn { running with code := 5, err := flagged.err } = .next t := by
  refine ⟨rfl, rfl, by decide, ?_, ?_⟩
  · obtain ⟨t, h, -⟩ := next_of_nextIs (o := engineTurn running) (p := fun _ => true) (by decide)
    exact ⟨t, h⟩
  · obtain ⟨t, h, -⟩ :=
      next_of_nextIs (o := engineTurn { running with code := 5, err := flagged.err })
        (p := fun _ => true) (by decide)
    exact ⟨t, h⟩

/-- ErrorsFollowTheirCauses, FlagsAreStickyAndSetByHostWrites: each error has a cause. -/
theorem witness_causes :
    Causes .cfg (.wrCfg 0 0 0 9) loaded ∧ Causes .alg (.wrCfg 0 3 0 6) loaded ∧
    Causes .cmd (.cmdIllegal 3) loaded ∧ Causes .busy .nop running :=
  ⟨⟨rfl, _, _, _, _, rfl, by decide, by decide, by decide⟩, ⟨rfl, _, _, _, _, rfl, rfl⟩,
    ⟨rfl, _, rfl⟩, ⟨rfl, rfl, rfl⟩⟩

/-- FlagsAreStickyAndSetByHostWrites: a step that sets a flag, and steps that clear one. -/
theorem witness_flag_steps :
    nextIs (step (loaded.present (.transaction 0x2000000003)))
      (fun t => !loaded.err.cmd && t.err.cmd) = true ∧
    nextIs (step (flagged.present (.transaction 0x2200000004)))
      (fun t => flagged.err.cmd && !t.err.cmd) = true ∧
    nextIs (step (flagged.present (.rst true)))
      (fun t => flagged.err.cmd && !t.err.cmd) = true := by decide

/-- FlagsNeverGateOperation: a completion with flags set. -/
theorem witness_completion_with_flags :
    nextIs (engineTurn { running with err := flagged.err }) (fun t => t.done) = true := by decide

/-- DoneLifetime: each way of clearing `DONE`, and an instruction that keeps it. -/
theorem witness_done :
    ClearsDone .trunc finished ∧ ClearsDone .clear finished ∧
    ClearsDone (.wrDigestw 15 0 0 0 0) finished ∧ ClearsDone (.wrCfg 0 2 0 8) finished ∧
    ¬ ClearsDone .nop finished :=
  ⟨⟨rfl, .inl rfl⟩, ⟨rfl, .inr (.inl rfl)⟩, ⟨rfl, .inr (.inr (.inl ⟨_, _, _, _, _, rfl⟩))⟩,
    ⟨rfl, .inr (.inr (.inr ⟨_, _, _, _, rfl, by decide, by decide⟩))⟩, by simp [ClearsDone]⟩

/-- DoneLifetime, BusyLifetime, ResetStepRestoresEverything: a busy machine about to be reset, and an idle
engine's turn. -/
theorem witness_reset_next :
    nextIs (step (running.present (.rst true))) (fun t => !t.busy) = true ∧
    nextEvent (running.present (.rst true)) = .rst true ∧
    (running.present (.rst true)).schedule = .rst true :: [] ∧
    nextIs (engineTurn loaded) (fun t => !t.busy) = true := by decide

/-- BusyPeriodLocksTheInputs: a step that leaves the machine busy, and the completion. -/
theorem witness_busy_steps :
    nextIs (step (running.present (.transaction 0x3012345678)))
      (fun t => running.busy && t.busy) = true ∧
    nextIs (step (running.present .engine)) (fun t => running.busy && !t.busy) = true ∧
    nextEvent (running.present .engine) ≠ .rst true := by decide

/-- OnlyTheListedMovesChangeState: a step that changes the digest, one that changes the configuration, and
two that change the results. -/
theorem witness_changing_steps :
    nextIs (step (loaded.present (.transaction 0x3012345678)))
      (fun t => t.digest != loaded.digest) = true ∧
    nextIs (step (loaded.present (.transaction 0x2300000208)))
      (fun t => t.digits != loaded.digits && t.alg != loaded.alg) = true ∧
    nextIs (step (running.present .engine)) (fun t => t.code != running.code) = true ∧
    nextIs (step (finished.present (.transaction 0x2000000002)))
      (fun t => t.code != finished.code) = true := by decide

/-- StepKeepsTheInvariant, EngineFinishesWhenTheScheduleEnds: a busy state of the invariant and its next
state. -/
theorem witness_step_from_inv : Inv running ∧ ∃ t, step running = .next t := by
  refine ⟨witness_inv_running, ?_⟩
  obtain ⟨t, h, -⟩ := next_of_nextIs (o := step running) (p := fun _ => true) (by decide)
  exact ⟨t, h⟩

/-- WriteAndCompletionInEitherOrder: the start of trace V-ORD. -/
theorem witness_either_order :
    running.busy = true ∧
    truncate running.digest running.alg running.digits = .ok ⟨0, 0x4C93CF18, 755224⟩ := by decide

/-- EngineFinishesWhenTheScheduleEnds: an operation in flight, and moves scheduled of which none is the
reset. -/
theorem witness_no_reset_scheduled :
    ∃ s : State, Inv s ∧ s.busy = true ∧ s.schedule = [.transaction 0x0100000000, .engine] ∧
      ∀ e ∈ s.schedule, e ≠ .rst true := by
  refine ⟨{ running with schedule := [.transaction 0x0100000000, .engine] }, ?_, rfl, rfl, by decide⟩
  obtain ⟨h1, h2, h3, h4, h5, h6, h7, h8⟩ := witness_inv_running
  exact ⟨h1, h2, h3, h4, h5, h6, h7, fun h => absurd h (by decide)⟩

/-- PseudoInstructionsExpand, with the lengths of `witness_digest_lengths`: the ends of the digit range. -/
theorem witness_setcfg :
    (setcfg 6 .sha1).map encode = [0x2300000006] ∧
      (setcfg 8 .sha512).map encode = [0x2300000208] := by decide

/-- WaitReadsStatusUntilIdle: at a `WAIT`, busy and idle. -/
theorem witness_wait :
    ((Driver.start [.wait] running).program = [.wait] ∧ running.rst = false ∧ running.busy = true) ∧
    ((Driver.start [.wait] loaded).program = [.wait] ∧ loaded.rst = false ∧
      loaded.busy = false) := by decide

/-- The turns of the driver and the engine in which each line is preceded by an engine's turn. -/
def fairTurns (n : Nat) : List Turn :=
  (List.replicate n [Turn.other .engine, Turn.driver]).flatten

theorem mem_fairTurns {n : Nat} {e : Event} (h : Turn.other e ∈ fairTurns n) : e = .engine := by
  obtain ⟨l, hl, he⟩ := List.mem_flatten.mp h
  rw [List.eq_of_mem_replicate hl] at he
  simpa using he

/-- FairDriverRunsFinish: a busy machine, a program with a `WAIT`, fair turns. -/
theorem witness_fair_run :
    Inv running ∧ running.rst = false ∧
    (∀ i, DriverOp.instr i ∈ [DriverOp.wait, .instr .rdCode] → i.wellFormed = true) ∧
    (∀ e, .other e ∈ fairTurns 2 → e = .engine) ∧ (fairTurns 2).Sublist (fairTurns 2) :=
  ⟨witness_inv_running, rfl, fun i hi => (show i = .rdCode by simpa using hi) ▸ rfl,
    fun _ => mem_fairTurns, List.Sublist.refl _⟩

/-- TruncateReadsTheSourceTruncate, DriverSequenceGivesTheCode: S1 from reset, and the longest digest with
8 digits; turns of as many lines as the programs have, so that they come to their end
(FairDriverRunsFinish). -/
theorem witness_truncate_run :
    (State.reset.busy = false ∧ State.reset.rst = false ∧ State.reset.digest.wf) ∧
    (dlen (algCode .sha1) = some bytesS1.length ∧ (6 : BitVec 4) = 6) ∧
    (dlen (algCode .sha512) = some (List.replicate 64 (0xFF : Byte)).length ∧ (8 : BitVec 4) = 8) ∧
    (truncateSequence bytesS1 6 .sha1).length = 9 ∧ (driverSequence bytesS1 6 .sha1).length = 13 ∧
    ∀ n e, .other e ∈ fairTurns n → e = .engine :=
  ⟨by decide, by decide, by decide, by decide, by decide, fun _ _ => mem_fairTurns⟩

end Sys2Proof.Tests
end

namespace Sys2Proof.Machine

/-! ### The host's transactions: the decoder read back, and what a word next on the schedule does -/

/-- The operand laws of R63, of which there is one for each instruction, as one law. -/
theorem operands_statement : ∀ i : Instr, Laws.Operands.Statement i
  | .nop => Laws.Operands.nop
  | .trunc => Laws.Operands.trunc
  | .clear => Laws.Operands.clear
  | .cmdIllegal data => Laws.Operands.cmdIllegal data
  | .wrStatus data => Laws.Operands.wrStatus data
  | .wrErr ignored m => Laws.Operands.wrErr ignored m
  | .wrCfg hi alg lo digits => Laws.Operands.wrCfg hi alg lo digits
  | .wrOffset data => Laws.Operands.wrOffset data
  | .wrValue data => Laws.Operands.wrValue data
  | .wrCode data => Laws.Operands.wrCode data
  | .wrRsvd7 data => Laws.Operands.wrRsvd7 data
  | .wrRsvd8to15 r data => Laws.Operands.wrRsvd8to15 r data
  | .wrDigestw k b0 b1 b2 b3 => Laws.Operands.wrDigestw k b0 b1 b2 b3
  | .rdCmd => Laws.Operands.rdCmd
  | .rdStatus => Laws.Operands.rdStatus
  | .rdErr => Laws.Operands.rdErr
  | .rdCfg => Laws.Operands.rdCfg
  | .rdOffset => Laws.Operands.rdOffset
  | .rdValue => Laws.Operands.rdValue
  | .rdCode => Laws.Operands.rdCode
  | .rdRsvd7 => Laws.Operands.rdRsvd7
  | .rdRsvd8to15 r => Laws.Operands.rdRsvd8to15 r
  | .rdDigestw k => Laws.Operands.rdDigestw k

/-- A read's word has no data (R61). -/
theorem data_of_read {i : Instr} (h : i.isWrite = false) : i.data = 0 := by
  cases i with
  | rdCmd | rdStatus | rdErr | rdCfg | rdOffset | rdValue | rdCode | rdRsvd7 | rdRsvd8to15
  | rdDigestw => rfl
  | _ => exact absurd h.symm Bool.false_ne_true

theorem decode_encode {i : Instr} (h : i.wellFormed = true) : decode (encode i) = .ok i := by
  have hop := operands_statement i h
  cases hw : i.isWrite with
  | true => simpa [decode, encode, hw] using hop
  | false => simpa [decode, encode, hw, data_of_read hw] using hop

theorem hostTransaction_of_decode_error {t : TWord} {e : DecodeError} {s : State}
    (hr : s.rst = false) (hd : decode t = .error e) :
    hostTransaction t s = .refused (.undecodable e) := by
  simp [hostTransaction, hr, hd]

/-- A step with a move scheduled makes that move, with the rest of the schedule left. -/
theorem step_of_schedule {s : State} {e : Event} {rest : List Event} (h : s.schedule = e :: rest) :
    step s = perform e { s with schedule := rest, rdata := none } := by
  simp [step, nextEvent, State.dequeue, h]

theorem step_of_schedule_nil {s : State} (h : s.schedule = []) : step s = engineTurn s.dequeue := by
  simp [step, nextEvent, perform, h]

/-- Settles O47: the step is the transaction's, and outside reset that is its instruction or the refusal. -/
theorem stepRunsTheDecodedInstruction : Obligations.StepRunsTheDecodedInstruction := by
  intro s w rest hr hs
  exact ⟨fun i hd => (step_of_schedule hs).trans (hostTransaction_of_decode hr hd),
    fun e hd => (step_of_schedule hs).trans (hostTransaction_of_decode_error hr hd)⟩

/-! ### The results are in range (R36) -/

/-- The moduli of R115 are at most `10^8`. -/
theorem pow_digits_le {n : BitVec 4} (h : validDigits n = true) : 10 ^ n.toNat ≤ 100000000 := by
  obtain rfl | rfl | rfl := validDigits_iff.mp h <;> decide

/-- The 27 bits of `CODE` hold every remainder. -/
theorem reduce_toNat (v : BitVec 31) {n : BitVec 4} (h : validDigits n = true) :
    (reduce v n).toNat = v.toNat % 10 ^ n.toNat := by
  have hlt : v.toNat % 10 ^ n.toNat < 10 ^ n.toNat := Nat.mod_lt _ (by positivity)
  have hle := pow_digits_le h
  rw [reduce, BitVec.toNat_ofNat]
  exact Nat.mod_eq_of_lt (by omega)

theorem reduce_lt (v : BitVec 31) {n : BitVec 4} (h : validDigits n = true) :
    (reduce v n).toNat < 10 ^ n.toNat :=
  reduce_toNat v h ▸ Nat.mod_lt _ (by positivity)

theorem reduce_le (v : BitVec 31) {n : BitVec 4} (h : validDigits n = true) :
    (reduce v n).toNat ≤ v.toNat :=
  reduce_toNat v h ▸ Nat.mod_le _ _

theorem reduce_max (v : BitVec 31) {n : BitVec 4} (h : validDigits n = true) :
    (reduce v n).toNat ≤ 99999999 :=
  Nat.le_of_lt_succ ((reduce_lt v h).trans_le (pow_digits_le h))

/-! ### Every operation of the machine keeps the invariant -/

/-- The answer on `rdata` and the moves to come are no part of the invariant. -/
theorem Inv.with_environment {s : State} (h : Inv s) (r : Option Word) (q : List Event) :
    Inv { s with rdata := r, schedule := q } :=
  { h with
    under_reset := fun hr =>
      congrArg (fun u : State => { u with rdata := r, schedule := q }) (h.under_reset hr) }

theorem Inv.dequeue {s : State} (h : Inv s) : Inv s.dequeue := h.with_environment _ _

/-- Outside reset the flags of `ERR` and the answer are no part of the invariant. -/
theorem Inv.with_err {s : State} (h : Inv s) (hr : s.rst = false) (f : ErrFlags)
    (a : Option Word) : Inv { s with err := f, rdata := a } :=
  { h with under_reset := fun ht => absurd ht (by simp [hr]) }

/-- Outside reset and with `DONE` clear, the invariant asks for the digest's form, a legal configuration and
results in range. -/
theorem inv_of_not_done {t : State} (hwf : t.digest.wf) (hn : validDigits t.digits = true)
    (ha : validAlg t.alg = true) (hmax : t.code.toNat ≤ 99999999)
    (hle : t.code.toNat ≤ t.value.toNat) (hd : t.done = false) (hr : t.rst = false) : Inv t where
  digest_wf := hwf
  digits_legal := hn
  alg_legal := ha
  done_idle h := absurd h (by simp [hd])
  done_results h := absurd h (by simp [hd])
  code_max := hmax
  code_le_value := hle
  under_reset h := absurd h (by simp [hr])

/-- An operation is in flight only outside reset. -/
theorem Inv.not_reset_of_busy {s : State} (h : Inv s) (hb : s.busy = true) : s.rst = false := by
  by_contra hr
  have hs := h.under_reset (by simpa using hr)
  rw [hs] at hb
  exact absurd hb Bool.false_ne_true

theorem Inv.finish {s : State} (h : Inv s) (hr : s.rst = false) {r : Truncation}
    (ht : truncate s.digest s.alg s.digits = .ok r) :
    Inv (s.finish r.offset r.value r.code) := by
  obtain ⟨len, -, hn, rfl⟩ := truncate_cases ht
  exact
    { digest_wf := h.digest_wf
      digits_legal := h.digits_legal
      alg_legal := h.alg_legal
      done_idle := fun _ => rfl
      done_results := fun _ => ht
      code_max := reduce_max _ hn
      code_le_value := reduce_le _ hn
      under_reset := fun h' => absurd h' (by simp [hr]) }

theorem inv_assertReset (s : State) : Inv s.assertReset where
  digest_wf := by simp [Memory.wf]
  digits_legal := rfl
  alg_legal := rfl
  done_idle _ := rfl
  done_results h := absurd h Bool.false_ne_true
  code_max := Nat.zero_le _
  code_le_value := Nat.le_refl _
  under_reset _ := rfl

theorem Inv.releaseReset {s : State} (h : Inv s) : Inv s.releaseReset :=
  { h with under_reset := fun hr => absurd hr Bool.false_ne_true }

theorem exec_keeps_inv {i : Instr} {s t : State} (h : Inv s) (hr : s.rst = false)
    (hx : exec i s = .next t) : Inv t := by
  rcases exec_cases hx with ⟨rfl, -⟩ | ⟨w, -, rfl⟩ | ⟨_, m, -, rfl⟩ | ⟨-, -, -, rfl⟩ | ⟨-, -, rfl⟩
    | ⟨-, -, rfl⟩ | ⟨-, -, rfl⟩ | ⟨-, _, a, _, d, -, hd, ha, rfl⟩ | ⟨-, _, a, _, d, -, -, rfl⟩
    | ⟨-, k, b0, b1, b2, b3, -, rfl⟩
  · exact h
  iterate 3 exact h.with_err hr _ _
  · exact inv_of_not_done h.digest_wf h.digits_legal h.alg_legal h.code_max h.code_le_value rfl hr
  · exact inv_of_not_done (by simp [Memory.wf]) h.digits_legal h.alg_legal (by simp) (by simp) rfl hr
  · exact h.with_err hr _ _
  · exact inv_of_not_done h.digest_wf hd ha h.code_max h.code_le_value rfl hr
  · rw [refuseCfg_eq]
    exact h.with_err hr _ _
  · exact inv_of_not_done (memWrite_wf h.digest_wf (digestwIndex_le k) _) h.digits_legal h.alg_legal
      h.code_max h.code_le_value rfl hr

theorem engineTurn_keeps_inv {s t : State} (h : Inv s) (hx : engineTurn s = .next t) : Inv t := by
  rcases engineTurn_cases hx with ⟨-, rfl⟩ | ⟨hb, r, hr, rfl⟩
  · exact h
  · exact h.finish (h.not_reset_of_busy hb) hr

theorem step_keeps_inv {s t : State} (h : Inv s) (hx : step s = .next t) : Inv t := by
  rcases step_cases hx with ⟨i, -, hr, hi⟩ | ⟨-, he⟩ | ⟨-, rfl⟩ | ⟨-, rfl⟩
  · exact exec_keeps_inv h.dequeue hr hi
  · exact engineTurn_keeps_inv h.dequeue he
  · exact inv_assertReset _
  · exact h.dequeue.releaseReset

/-! ### The invariant rules the faults out (R7, R35, R120) -/

/-- The engine's turn completes on every legal configuration. -/
theorem Inv.engineTurn_completes {s : State} (h : Inv s) : ∃ t, engineTurn s = .next t := by
  obtain ⟨len, hl⟩ := dlen_of_validAlg h.alg_legal
  unfold engineTurn complete
  rw [truncate_ok hl h.digits_legal]
  cases s.busy <;> exact ⟨_, rfl⟩

/-- A transaction of the host is no fault. -/
theorem hostTransaction_ne_fault (w : TWord) (s : State) (f : Fault) :
    hostTransaction w s ≠ .fault f := by
  cases hr : s.rst with
  | true => simp [hostTransaction, hr]
  | false =>
    cases hd : decode w with
    | error e => simp [hostTransaction_of_decode_error hr hd]
    | ok i =>
      obtain ⟨t, ht⟩ := exec_completes i s
      simp [hostTransaction_of_decode hr hd, ht]

/-- Only the engine's turn faults. -/
theorem engineTurn_of_perform_fault {e : Event} {s : State} {f : Fault}
    (h : perform e s = .fault f) : engineTurn s = .fault f := by
  cases e with
  | transaction w => exact absurd h (hostTransaction_ne_fault w s f)
  | access a =>
    simp only [perform, hostAccess] at h
    cases ha : accessWord a with
    | none => simp [ha] at h
    | some w => exact absurd (by simpa [ha] using h) (hostTransaction_ne_fault w s f)
  | engine => exact h
  | rst asserted => simp [perform, driveReset] at h

/-- From a state of the invariant a step goes on in the invariant or is refused. -/
theorem Inv.step_next_or_refused {s : State} (h : Inv s) :
    (∃ t, step s = .next t ∧ Inv t) ∨ ∃ r, step s = .refused r := by
  cases hx : step s with
  | next t => exact .inl ⟨t, rfl, step_keeps_inv h hx⟩
  | fault f =>
    obtain ⟨t, ht⟩ := h.dequeue.engineTurn_completes
    exact absurd (ht.symm.trans (engineTurn_of_perform_fault hx)) (by simp)
  | refused r => exact .inr ⟨r, rfl⟩

/-- Settles O51, by induction on the number of steps. -/
theorem runsFromTheInvariantNeverFault : Obligations.RunsFromTheInvariantNeverFault := by
  intro s k
  induction k generalizing s with
  | zero => exact fun _ f => by simp [Host.Core.run]
  | succ k ih =>
    intro h f
    obtain ⟨t, hx, ht⟩ | ⟨r, hx⟩ := h.step_next_or_refused
    · rw [run_of_next k hx]
      exact ih t ht f
    · rw [run_of_refused k hx]
      simp

/-! ### The busy period (R28, R34, R117) -/

/-- Two states in which the completion computes from the same inputs. -/
structure SameInputs (s t : State) : Prop where
  digest : t.digest = s.digest
  alg : t.alg = s.alg
  digits : t.digits = s.digits

theorem SameInputs.truncate_eq {s t : State} (h : SameInputs s t) :
    truncate t.digest t.alg t.digits = truncate s.digest s.alg s.digits := by
  rw [h.digest, h.alg, h.digits]

/-- While busy, an instruction changes no input and does not end the operation in flight. -/
theorem exec_while_busy {i : Instr} {s t : State} (hb : s.busy = true) (h : exec i s = .next t) :
    t.busy = true ∧ SameInputs s t := by
  rcases exec_cases h with ⟨rfl, -⟩ | ⟨w, -, rfl⟩ | ⟨_, m, -, rfl⟩ | ⟨-, -, -, rfl⟩ | ⟨hi, -⟩
    | ⟨hi, -⟩ | ⟨hi, -⟩ | ⟨hi, -⟩ | ⟨hi, -⟩ | ⟨hi, -⟩
  iterate 4 exact ⟨hb, rfl, rfl, rfl⟩
  all_goals exact absurd (hb.symm.trans hi) (by decide)

/-- While busy, the engine's turn is the completion. -/
theorem engineTurn_while_busy {s t : State} (hb : s.busy = true) (h : engineTurn s = .next t) :
    t.busy = false ∧ t.done = true ∧
      truncate s.digest s.alg s.digits = .ok ⟨t.offset, t.value, t.code⟩ := by
  rcases engineTurn_cases h with ⟨hi, -⟩ | ⟨-, r, hr, rfl⟩
  · exact absurd (hb.symm.trans hi) (by decide)
  · exact ⟨rfl, rfl, hr⟩

/-- What a step of a busy machine does: it goes on with the same inputs, it completes, or it is the reset. -/
theorem step_while_busy {s t : State} (hb : s.busy = true) (h : step s = .next t) :
    (t.busy = true ∧ SameInputs s t) ∨
    (nextEvent s = .engine ∧ t.busy = false ∧ t.done = true ∧
      truncate s.digest s.alg s.digits = .ok ⟨t.offset, t.value, t.code⟩) ∨
    (nextEvent s = .rst true ∧ t.busy = false) := by
  rcases step_cases h with ⟨i, -, -, hi⟩ | ⟨he, hx⟩ | ⟨he, rfl⟩ | ⟨-, rfl⟩
  · obtain ⟨ht, hd, ha, hn⟩ := exec_while_busy (s := s.dequeue) hb hi
    exact .inl ⟨ht, hd, ha, hn⟩
  · exact .inr (.inl ⟨he, engineTurn_while_busy (s := s.dequeue) hb hx⟩)
  · exact .inr (.inr ⟨he, rfl⟩)
  · exact .inl ⟨hb, rfl, rfl, rfl⟩

/-- A next move that is the reset is a scheduled one. -/
theorem mem_schedule_of_nextEvent_rst {s : State} {b : Bool} (h : nextEvent s = .rst b) :
    .rst b ∈ s.schedule := by
  cases hs : s.schedule with
  | nil => simp [nextEvent, hs] at h
  | cons e rest =>
    rw [nextEvent, hs] at h
    simp [← h]

/-- What a run has reached when the engine is idle again: where an operation was in flight at `s` and no
reset was scheduled, it has completed on the inputs of `s`. -/
def Settled (s t : State) : Prop :=
  t.busy = false ∧ (s.busy = true → (∀ e ∈ s.schedule, e ≠ .rst true) → t.done = true ∧
    truncate s.digest s.alg s.digits = .ok ⟨t.offset, t.value, t.code⟩)

theorem settled_of_idle {s : State} (h : s.busy = false) : Settled s s :=
  ⟨h, fun hb => absurd (hb.symm.trans h) (by decide)⟩

/-- A step that keeps the operation in flight hands on what is to be reached. -/
theorem Settled.of_step {s t u : State} (h : Settled t u) (hx : step s = .next t)
    (hb : t.busy = true) (hin : SameInputs s t) : Settled s u := by
  refine ⟨h.1, fun _ hres => ?_⟩
  rw [← hin.truncate_eq]
  refine h.2 hb fun e he => hres e (List.mem_of_mem_tail ?_)
  rwa [← step_schedule hx]

/-- The step that ends the busy period, by the completion or by the reset, reaches it. -/
theorem settled_of_step {s t : State} (hs : s.busy = true) (hx : step s = .next t)
    (ht : t.busy = false) : Settled s t := by
  refine ⟨ht, fun _ hres => ?_⟩
  rcases step_while_busy hs hx with ⟨hb, -⟩ | ⟨-, -, hres⟩ | ⟨he, -⟩
  · exact absurd (hb.symm.trans ht) (by decide)
  · exact hres
  · exact absurd rfl (hres _ (mem_schedule_of_nextEvent_rst he))

/-- With nothing scheduled the busy machine completes (log entry 2). -/
theorem step_idle_of_schedule_nil {s t : State} (hs : s.busy = true) (hq : s.schedule = [])
    (hx : step s = .next t) : t.busy = false :=
  (engineTurn_while_busy (s := s.dequeue) hs (step_of_schedule_nil hq ▸ hx)).1

/-- A run of at most `n` steps from `s` reaches it, or is refused. -/
def SettlesWithin (n : Nat) (s : State) : Prop :=
  ∃ k, k ≤ n ∧ ((∃ t, core.run k s = .next t ∧ Settled s t) ∨ ∃ r, core.run k s = .refused r)

theorem settlesWithin_of_idle {s : State} (n : Nat) (h : s.busy = false) : SettlesWithin n s :=
  ⟨0, Nat.zero_le n, .inl ⟨s, rfl, settled_of_idle h⟩⟩

/-- A run reaches it one step later than from each next state in which the operation is still in flight. -/
theorem Inv.settlesWithin_succ {n : Nat} {s : State} (h : Inv s)
    (hnext : ∀ t, s.busy = true → step s = .next t → t.busy = true → SettlesWithin n t) :
    SettlesWithin (n + 1) s := by
  cases hs : s.busy with
  | false => exact settlesWithin_of_idle _ hs
  | true =>
    obtain ⟨t, hx, -⟩ | ⟨r, hx⟩ := h.step_next_or_refused
    · rcases step_while_busy hs hx with ⟨ht, hin⟩ | ⟨-, ht, -⟩ | ⟨-, ht⟩
      · obtain ⟨k, hk, hrun⟩ := hnext t hs hx ht
        refine ⟨k + 1, Nat.succ_le_succ hk, ?_⟩
        rw [run_of_next k hx]
        exact hrun.imp_left fun ⟨u, hu, hset⟩ => ⟨u, hu, hset.of_step hx ht hin⟩
      all_goals exact ⟨1, Nat.succ_le_succ (Nat.zero_le n),
        .inl ⟨t, run_of_next 0 hx, settled_of_step hs hx ht⟩⟩
    · exact ⟨1, Nat.succ_le_succ (Nat.zero_le n), .inr ⟨r, run_of_refused 0 hx⟩⟩

theorem Inv.settlesWithin_schedule {s : State} (h : Inv s) :
    SettlesWithin (s.schedule.length + 1) s := by
  induction hq : s.schedule generalizing s with
  | nil =>
    exact h.settlesWithin_succ fun t hs hx ht =>
      absurd (ht.symm.trans (step_idle_of_schedule_nil hs hq hx)) (by decide)
  | cons e rest ih =>
    exact h.settlesWithin_succ fun t _ hx _ =>
      ih (step_keeps_inv h hx) (by rw [step_schedule hx, hq, List.tail_cons])

/-- Settles O53, by the induction on the moves scheduled in `Inv.settlesWithin_schedule`. -/
theorem engineFinishesWhenTheScheduleEnds : Obligations.EngineFinishesWhenTheScheduleEnds :=
  fun _ h => h.settlesWithin_schedule

/-! ### The runs of a driver (R74, R177) -/

/-- Bit 0 of the word `STATUS` is read as is `BUSY` (R85). -/
theorem statusWord_bit0 (done busy : Bool) : (statusWord done busy).getLsbD 0 = busy := by
  cases done <;> cases busy <;> decide

@[simp] theorem exec_rdStatus (s : State) :
    exec .rdStatus s = .next (s.respond (statusWord s.done s.busy)) := rfl

/-- A line issued while the engine is idle is done with after its turn. -/
theorem ended_of_idle (op : DriverOp) {s t : State} (hb : s.busy = false)
    (hx : exec op.transaction s = .next t) : op.ended t.rdata = true := by
  cases op with
  | instr i => rfl
  | wait =>
    obtain rfl := Host.Outcome.next.inj ((exec_rdStatus s).symm.trans hx)
    rw [respond_rdata, ended_wait, statusWord_bit0, hb, Bool.not_false]

/-- What a driver's run with the engine keeps: the invariant outside reset, and lines that the encoding
serialises. -/
structure Driver.Sound (d : Driver) : Prop where
  inv : Inv d.machine
  released : d.machine.rst = false
  wellFormed : ∀ i, .instr i ∈ d.program → i.wellFormed = true

theorem Driver.Sound.decode_transaction {d : Driver} (h : d.Sound) {op : DriverOp}
    (hop : op ∈ d.program) : decode (encode op.transaction) = .ok op.transaction := by
  cases op with
  | instr i => exact decode_encode (h.wellFormed i hop)
  | wait => exact decode_encode rfl

/-- The program left after the turn of the line `op`. -/
theorem advance_program (d : Driver) (op : DriverOp) (rest : List DriverOp) (t : State) :
    (d.advance op rest t).program = if op.ended t.rdata then rest else op :: rest := rfl

theorem Driver.Sound.advance {d : Driver} (h : d.Sound) {op : DriverOp} {rest : List DriverOp}
    (hp : d.program = op :: rest) {t : State}
    (hx : exec op.transaction { d.machine with rdata := none } = .next t) :
    (d.advance op rest t).Sound where
  inv := exec_keeps_inv (h.inv.with_environment none d.machine.schedule) h.released hx
  released := (exec_environment hx).1.trans h.released
  wellFormed i hi := by
    rw [advance_program] at hi
    refine h.wellFormed i (hp ▸ ?_)
    split_ifs at hi
    · exact List.mem_cons_of_mem _ hi
    · exact hi

/-- A driver's turn issues its line: the program gets no longer, and shorter where the engine was idle. -/
theorem Driver.Sound.driverTurn {d : Driver} (h : d.Sound) :
    ∃ d', takeTurn .driver d = .next d' ∧ d'.Sound ∧
      d'.program.length ≤ d.program.length ∧
      (d.machine.busy = false → d'.program.length ≤ d.program.length - 1) := by
  cases hp : d.program with
  | nil => exact ⟨d, takeTurn_driver_nil hp, h, by simp [hp], by simp [hp]⟩
  | cons op rest =>
    obtain ⟨t, hx⟩ := exec_completes op.transaction { d.machine with rdata := none }
    have hturn := takeTurn_driver hp h.released (h.decode_transaction (by simp [hp]))
    rw [hx] at hturn
    refine ⟨_, hturn, h.advance hp hx, ?_, fun hb => ?_⟩ <;> rw [advance_program]
    · split_ifs <;> simp
    · simp [ended_of_idle op (s := { d.machine with rdata := none }) hb hx]

/-- The engine's turn leaves the engine idle, and the environment's fields alone. -/
theorem engineTurn_idle {s t : State} (h : engineTurn s = .next t) :
    t.busy = false ∧ t.rst = s.rst ∧ t.schedule = s.schedule := by
  rcases engineTurn_cases h with ⟨hb, rfl⟩ | ⟨-, r, -, rfl⟩
  · exact ⟨hb, rfl, rfl⟩
  · exact ⟨rfl, rfl, rfl⟩

/-- The engine's turn leaves the engine idle and the program as it was. -/
theorem Driver.Sound.engineTurn {d : Driver} (h : d.Sound) :
    ∃ d', takeTurn (.other .engine) d = .next d' ∧ d'.Sound ∧ d'.program = d.program ∧
      d'.machine.busy = false := by
  have hinv := h.inv.with_environment none d.machine.schedule
  obtain ⟨t, hx⟩ := hinv.engineTurn_completes
  obtain ⟨hidle, hr, -⟩ := engineTurn_idle hx
  refine ⟨{ d with machine := t }, ?_,
    ⟨engineTurn_keeps_inv hinv hx, hr.trans h.released, h.wellFormed⟩, rfl, hidle⟩
  rw [takeTurn_engine, hx]
  rfl

/-- `n` times an engine's turn and then a driver's. -/
def rounds (n : Nat) : List Turn := (List.replicate n [Turn.other .engine, Turn.driver]).flatten

@[simp] theorem rounds_zero : rounds 0 = [] := rfl

theorem rounds_succ (n : Nat) : rounds (n + 1) = .other .engine :: .driver :: rounds n := by
  simp [rounds, List.replicate_succ]

/-- Rounds that start with an engine's turn stand after a driver's turn if they stand from it on. -/
theorem rounds_sublist_of_driver {n : Nat} {turns : List Turn}
    (h : (rounds n).Sublist (.driver :: turns)) : (rounds n).Sublist turns := by
  cases n with
  | zero => exact List.nil_sublist _
  | succ n =>
    rw [rounds_succ] at h ⊢
    cases h with
    | cons _ h => exact h

/-- The rest of a round stands after an engine's turn. -/
theorem driver_rounds_sublist_of_engine {n : Nat} {turns : List Turn}
    (h : (rounds (n + 1)).Sublist (.other .engine :: turns)) :
    (Turn.driver :: rounds n).Sublist turns := by
  rw [rounds_succ] at h
  cases h with
  | cons _ h => exact (List.sublist_cons_self _ _).trans h
  | cons_cons _ h => exact h

/-- A run with the engine goes on, and each round takes a line off the program: after the engine's turn the
engine is idle, so that the next driver's turn ends its line, a `WAIT` too. Where the engine is idle at the
start the first round needs no engine's turn. -/
theorem Driver.Sound.drive_rounds {turns : List Turn} {d : Driver} (h : d.Sound)
    (hturns : ∀ e, .other e ∈ turns → e = .engine) :
    ∃ d', drive turns d = .next d' ∧
      (∀ n, (rounds n).Sublist turns → d'.program.length ≤ d.program.length - n) ∧
      (d.machine.busy = false → ∀ n, (Turn.driver :: rounds n).Sublist turns →
        d'.program.length ≤ d.program.length - (n + 1)) := by
  induction turns generalizing d with
  | nil =>
    refine ⟨d, rfl, fun n hn => ?_, fun _ n hn => ?_⟩
    · cases n with
      | zero => exact Nat.le_refl _
      | succ n => simp [rounds_succ] at hn
    · simp at hn
  | cons turn turns ih =>
    have hrest : ∀ e, .other e ∈ turns → e = .engine := fun e he =>
      hturns e (List.mem_cons_of_mem _ he)
    cases turn with
    | driver =>
      obtain ⟨d₁, hx, h₁, hle, hlt⟩ := h.driverTurn
      obtain ⟨d', hd', hbusy, -⟩ := ih h₁ hrest
      refine ⟨d', (drive_cons turns hx).trans hd', fun n hn => ?_, fun hb n hn => ?_⟩
      · have := hbusy n (rounds_sublist_of_driver hn)
        omega
      · have := hbusy n (List.cons_sublist_cons.mp hn)
        have := hlt hb
        omega
    | other e =>
      obtain rfl := hturns e (List.mem_cons_self ..)
      obtain ⟨d₁, hx, h₁, hp, hidle⟩ := h.engineTurn
      obtain ⟨d', hd', hbusy, hfree⟩ := ih h₁ hrest
      rw [hp] at hbusy hfree
      refine ⟨d', (drive_cons turns hx).trans hd', fun n hn => ?_, fun _ n hn => ?_⟩
      · cases n with
        | zero => exact hbusy 0 (List.nil_sublist _)
        | succ n => exact hfree hidle n (driver_rounds_sublist_of_engine hn)
      · refine hfree hidle n ?_
        cases hn with
        | cons _ hn => exact hn

/-- Settles O57: as many rounds as the program has lines leave none. -/
theorem fairDriverRunsFinish : Obligations.FairDriverRunsFinish := by
  intro d turns hinv hr hwf hturns
  obtain ⟨d', hd', hrounds, -⟩ := Driver.Sound.drive_rounds ⟨hinv, hr, hwf⟩ hturns
  refine ⟨d', hd', fun hfair => List.eq_nil_of_length_eq_zero ?_⟩
  have := hrounds d.program.length hfair
  omega

end Sys2Proof.Machine

namespace Sys2Proof.Machine

/-! ### The invariant, step by step and at reset (R31, R35 to R37, R160) -/

/-- Settles O50: what each of the moves keeps is said by `exec_keeps_inv`, `engineTurn_keeps_inv` and
`inv_assertReset`. -/
theorem stepKeepsTheInvariant : Obligations.StepKeepsTheInvariant :=
  fun _ _ h hx => step_keeps_inv h hx

/-- Settles O49: reset is what asserting `rst` and releasing it again leaves of it. -/
theorem resetSatisfiesTheInvariant : Obligations.ResetSatisfiesTheInvariant :=
  (inv_assertReset State.reset).releaseReset

/-! ### Reading the digest words (R99), and reset as the host reads it (R37) -/

theorem exec_rdDigestw {s : State} {k : BitVec 4} {w : Word}
    (h : memReadWord s.digest (digestwIndex k) = w) :
    exec (.rdDigestw k) s = .next { s with rdata := some w } :=
  h ▸ rfl

theorem memReadWord_of_exec_rdDigestw {s : State} {k : BitVec 4} {w : Word}
    (h : exec (.rdDigestw k) s = .next { s with rdata := some w }) :
    memReadWord s.digest (digestwIndex k) = w :=
  Option.some.inj (congrArg State.rdata (Host.Outcome.next.inj h))

@[simp] theorem memRead_nil (addr n : Nat) : memRead [] addr n = 0 := by
  induction n generalizing addr with
  | zero => rfl
  | succ n ih => simp [memRead, ih]

/-- Settles O44: the fields and the words of `State.reset` evaluate; a digest word reads zero because no byte
is listed. -/
theorem resetValues : Obligations.ResetValues :=
  ⟨fun i _ => read_nil i, rfl, rfl, rfl, rfl, rfl, rfl, rfl, none_get, rfl, rfl, rfl, rfl, rfl, rfl,
    fun _ => exec_rdDigestw (congrArg (BitVec.ofNat 32) (memRead_nil _ _))⟩

/-! ### Writing the digest words (R44, R45, R100) -/

/-- The bytes of a number stored big-endian are read back as the number, as far as they hold it. -/
theorem memRead_memWrite {m : Memory} (h : m.Pairwise fun x y => x.1 < y.1) (addr n v : Nat) :
    memRead (memWrite m addr n v) addr n = v % 256 ^ n := by
  induction n generalizing m addr with
  | zero => simp [memRead, Nat.mod_one]
  | succ n ih =>
    have hfirst : (memWrite m addr (n + 1) v).read addr = BitVec.ofNat 8 (v / 256 ^ n) := by
      rw [memWrite, read_memWrite_outside _ _ (by omega), read_write_self h,
        Nat.shiftRight_eq_div_pow, pow_mul]
      rfl
    have hrest : memRead (memWrite m addr (n + 1) v) (addr + 1) n = v % 256 ^ n :=
      ih (write_sorted h _ _) (addr + 1)
    rw [memRead, hfirst, hrest, BitVec.toNat_ofNat, Nat.mod_pow_succ (b := 256)]
    ring

theorem memReadWord_memWrite_self {m : Memory} (h : m.Pairwise fun x y => x.1 < y.1) (addr : Nat)
    (w : Word) : memReadWord (memWrite m addr 4 w.toNat) addr = w := by
  apply BitVec.eq_of_toNat_eq
  rw [memReadWord_toNat, memRead_memWrite h]
  exact Nat.mod_eq_of_lt w.isLt

/-- The four bytes of two digest words do not overlap. -/
theorem digestwIndex_disjoint {k k' : BitVec 4} (h : k' ≠ k) :
    digestwIndex k' + 4 ≤ digestwIndex k ∨ digestwIndex k + 4 ≤ digestwIndex k' := by
  have hne : k'.toNat ≠ k.toNat := fun he => h (BitVec.eq_of_toNat_eq he)
  simp only [digestwIndex]
  omega

theorem memReadWord_memWrite_of_ne (m : Memory) {k k' : BitVec 4} (h : k' ≠ k) (v : Nat) :
    memReadWord (memWrite m (digestwIndex k) 4 v) (digestwIndex k')
      = memReadWord m (digestwIndex k') := by
  have hdisj := digestwIndex_disjoint h
  exact memReadWord_congr fun i h1 h2 => read_memWrite_outside _ _ (by omega)

/-- An accepted write of a digest word (R100). -/
theorem exec_wrDigestw_idle {s t : State} {k : BitVec 4} {b0 b1 b2 b3 : Byte} (hb : s.busy = false)
    (h : exec (.wrDigestw k b0 b1 b2 b3) s = .next t) :
    t = s.storeDigestw k (b0 ++ b1 ++ b2 ++ b3) :=
  (Host.Outcome.next.inj h).symm.trans (unlessBusy_idle hb)

/-- Settles O22: the word written is `memReadWord_memWrite_self`, the others `memReadWord_memWrite_of_ne`. -/
theorem digestWordReadsBack : Obligations.DigestWordReadsBack := by
  intro s t k k' b0 b1 b2 b3 hb hwf hx
  obtain rfl := exec_wrDigestw_idle hb hx
  refine ⟨exec_rdDigestw (memReadWord_memWrite_self hwf.1 _ _), fun hk w hw => ?_⟩
  have hbefore := memReadWord_of_exec_rdDigestw hw
  exact exec_rdDigestw ((memReadWord_memWrite_of_ne _ hk _).trans hbefore)

/-! ### The canonical form of the digest buffer (log entry 9) -/

/-- A byte that does not read 0x00 is listed. -/
theorem mem_of_read_ne_zero {m : Memory} {i : Nat} (h : m.read i ≠ 0) : (i, m.read i) ∈ m := by
  induction m with
  | nil => exact absurd rfl h
  | cons c m ih =>
    obtain ⟨j, b⟩ := c
    simp only [Memory.read] at h ⊢
    split_ifs at h ⊢ with hij
    · exact hij ▸ List.mem_cons_self
    · exact List.mem_cons_of_mem _ (ih h)

/-- A listed byte is read, where no index is listed twice. -/
theorem read_of_mem {m : Memory} (hs : m.Pairwise fun x y => x.1 < y.1) {i : Nat} {b : Byte}
    (h : (i, b) ∈ m) : m.read i = b := by
  induction m with
  | nil => exact absurd h List.not_mem_nil
  | cons c m ih =>
    obtain ⟨hc, hm⟩ := List.pairwise_cons.mp hs
    rcases List.mem_cons.mp h with rfl | h
    · exact if_pos rfl
    · exact (if_neg (hc _ h).ne').trans (ih hm h)

/-- What a buffer in canonical form lists is what it reads: the bytes below 64 that are not zero. -/
theorem mem_iff_of_wf {m : Memory} (h : m.wf) {i : Nat} {b : Byte} :
    (i, b) ∈ m ↔ i < 64 ∧ b ≠ 0 ∧ m.read i = b := by
  constructor
  · exact fun hc => ⟨(h.2 _ hc).1, (h.2 _ hc).2, read_of_mem h.1 hc⟩
  · rintro ⟨-, hb, rfl⟩
    exact mem_of_read_ne_zero hb

/-- Settles O26: the two buffers list the same cells, and a list of rising indices is determined by its
cells. -/
theorem equalBuffersAreEqualData : Obligations.EqualBuffersAreEqualData := by
  intro m m' hm hm' hread
  have hcells : ∀ c, c ∈ m ↔ c ∈ m' := fun ⟨i, b⟩ => by
    rw [mem_iff_of_wf hm, mem_iff_of_wf hm']
    exact and_congr_right fun hi => by rw [hread i hi]
  have hnodup {l : Memory} (h : l.wf) : l.Nodup := h.1.imp fun hlt he => hlt.ne (congrArg Prod.fst he)
  have hperm : m.Perm m' := (List.perm_ext_iff_of_nodup (hnodup hm) (hnodup hm')).mpr hcells
  exact hperm.eq_of_pairwise (fun _ _ _ _ h1 h2 => absurd h1 h2.asymm) hm.1 hm'.1

/-! ### The results in numbers (R31, R112 to R115) -/

theorem offsetOf_toNat (d : Memory) (len : Nat) :
    (offsetOf d len).toNat = (d.read (len - 1)).toNat % 16 := by
  simp [offsetOf, memRead]

theorem mask31_toNat (w : Word) : (mask31 w).toNat = w.toNat % 2 ^ 31 := by
  simp [mask31]

theorem windowOf_toNat (d : Memory) (o : BitVec 4) : (windowOf d o).toNat = memRead d o.toNat 4 :=
  memReadWord_toNat d o.toNat

/-- Settles O52: the results are those of `truncateLen`, whose parts the lemmas above give as numbers. -/
theorem doneMeansTheResultsMatch : Obligations.DoneMeansTheResultsMatch := by
  intro s h hd
  obtain ⟨len, hlen, hn, hr⟩ := truncate_cases (h.done_results hd)
  obtain ⟨ho, hv, hc⟩ := Truncation.mk.inj hr
  rw [← ho] at hv
  rw [← ho, ← hv] at hc
  refine ⟨h.done_idle hd, hc ▸ reduce_lt _ hn, hc ▸ reduce_toNat _ hn, len, hlen, ?_, ?_⟩
  · rw [ho, offsetOf_toNat]
  · rw [hv, mask31_toNat, windowOf_toNat]

/-! ### What a busy period locks, and what ends it (R28, R34, R117) -/

/-- While busy, an instruction changes `ERR` and the answer at most (R81, R82, R88). -/
theorem exec_while_busy_eq {i : Instr} {s t : State} (hb : s.busy = true) (h : exec i s = .next t) :
    t = { s with err := t.err, rdata := t.rdata } := by
  rcases exec_cases h with ⟨rfl, -⟩ | ⟨w, -, rfl⟩ | ⟨_, m, -, rfl⟩ | ⟨-, -, -, rfl⟩ | ⟨hi, -⟩
    | ⟨hi, -⟩ | ⟨hi, -⟩ | ⟨hi, -⟩ | ⟨hi, -⟩ | ⟨hi, -⟩
  iterate 4 rfl
  all_goals exact absurd hb (ne_true_of_eq_false hi)

/-- `BUSY` is set by TRUNC and cleared by no instruction. -/
theorem exec_busy_iff {i : Instr} {s t : State} (h : exec i s = .next t) :
    t.busy = true ↔ s.busy = true ∨ i = .trunc := by
  rcases exec_cases h with ⟨rfl, -, hnop⟩ | ⟨w, hr, rfl⟩ | ⟨_, m, rfl, rfl⟩ | ⟨hb, -, -, rfl⟩
    | ⟨-, rfl, rfl⟩ | ⟨-, rfl, rfl⟩ | ⟨-, ⟨_, rfl⟩, rfl⟩ | ⟨-, _, _, _, _, rfl, -, -, rfl⟩
    | ⟨-, _, _, _, _, rfl, -, rfl⟩ | ⟨-, _, _, _, _, _, rfl, rfl⟩
  · refine (or_iff_left ?_).symm
    rintro rfl
    exact nomatch (hnop rfl).1
  · refine (or_iff_left ?_).symm
    rintro rfl
    exact nomatch hr
  · exact (or_iff_left nofun).symm
  · exact iff_of_true hb (.inl hb)
  · exact iff_of_true rfl (.inr rfl)
  · exact (or_iff_left nofun).symm
  · exact (or_iff_left nofun).symm
  · exact (or_iff_left nofun).symm
  · rw [refuseCfg_eq]
    exact (or_iff_left nofun).symm
  · exact (or_iff_left nofun).symm

/-- After the engine's turn no operation is in flight. -/
theorem engineTurn_busy {s t : State} (h : engineTurn s = .next t) : t.busy = false := by
  rcases engineTurn_cases h with ⟨hb, rfl⟩ | ⟨-, r, -, rfl⟩
  · exact hb
  · rfl

/-- The move that asserts `rst` is the reset step. -/
theorem step_of_nextEvent_rst {s t : State} (h : step s = .next t) (he : nextEvent s = .rst true) :
    t = s.dequeue.assertReset := by
  rw [step, he] at h
  exact (Host.Outcome.next.inj h).symm

/-- Settles O41, by `exec_busy_iff`, `exec_while_busy_eq` and what the engine's turn and reset do. -/
theorem busyLifetime : Obligations.BusyLifetime := by
  refine ⟨fun i s t h => ⟨exec_busy_iff h, fun hb => ?_⟩, fun s t => engineTurn_busy,
    fun s t h he => ?_⟩
  · rw [exec_while_busy_eq hb h]
    exact ⟨rfl, rfl, rfl, rfl⟩
  · rw [step_of_nextEvent_rst h he, assertReset_busy]

/-- Settles O42, by the moves a busy machine has: an instruction and the release of `rst` keep all but `ERR`
and the environment's fields, and the engine's turn is the completion. -/
theorem busyPeriodLocksTheInputs : Obligations.BusyPeriodLocksTheInputs := by
  intro s t hb hx hne
  rcases step_cases hx with ⟨i, -, -, hi⟩ | ⟨he, heng⟩ | ⟨he, -⟩ | ⟨-, rfl⟩
  · have hkeep := exec_while_busy_eq (s := s.dequeue) hb hi
    rw [hkeep]
    exact ⟨rfl, rfl, rfl, fun _ => ⟨rfl, rfl, rfl, rfl⟩,
      fun hidle => absurd hb (ne_true_of_eq_false hidle)⟩
  · rcases engineTurn_cases heng with ⟨hidle, -⟩ | ⟨-, r, hr, rfl⟩
    · exact absurd hb (ne_true_of_eq_false hidle)
    · exact ⟨rfl, rfl, rfl, nofun, fun _ => ⟨he, rfl, hr⟩⟩
  · exact absurd he hne
  · exact ⟨rfl, rfl, rfl, fun _ => ⟨rfl, rfl, rfl, rfl⟩,
      fun hidle => absurd hb (ne_true_of_eq_false hidle)⟩

/-! ### What sets, clears and keeps DONE (R30) -/

/-- The transactions that clear `DONE` are writes the busy period locks, and none is the NOP. -/
theorem ClearsDone.locked {i : Instr} {s : State} (h : ClearsDone i s) :
    i.isWrite = true ∧ lockedSlot i.slot = true ∧ i ≠ .nop := by
  obtain ⟨-, rfl | rfl | ⟨_, _, _, _, _, rfl⟩ | ⟨_, _, _, _, rfl, -⟩⟩ := h <;>
    exact ⟨rfl, rfl, nofun⟩

theorem validAlg_iff_ne {a : BitVec 2} : validAlg a = true ↔ a ≠ 3 := by
  revert a
  decide

/-- A write to `CFG` clears `DONE` where it is accepted. -/
theorem clearsDone_wrCfg {hi : BitVec 22} {a : BitVec 2} {lo d : BitVec 4} {s : State} :
    ClearsDone (.wrCfg hi a lo d) s ↔
      s.busy = false ∧ validDigits d = true ∧ validAlg a = true := by
  simp [ClearsDone, validDigits_iff, validAlg_iff_ne]

theorem exec_done {i : Instr} {s t : State} (h : exec i s = .next t) :
    (ClearsDone i s ∧ t.done = false) ∨ (¬ ClearsDone i s ∧ t.done = s.done) := by
  rcases exec_cases h with ⟨rfl, -, hnop⟩ | ⟨w, hr, rfl⟩ | ⟨_, m, rfl, rfl⟩ | ⟨hb, -, -, rfl⟩
    | ⟨hb, rfl, rfl⟩ | ⟨hb, rfl, rfl⟩ | ⟨-, ⟨_, rfl⟩, rfl⟩ | ⟨hb, _, _, _, _, rfl, hd, ha, rfl⟩
    | ⟨-, _, _, _, _, rfl, hv, rfl⟩ | ⟨hb, _, _, _, _, _, rfl, rfl⟩
  · refine .inr ⟨fun hc => ?_, rfl⟩
    obtain ⟨-, hl, hne⟩ := hc.locked
    exact hne (hnop hl).1
  · exact .inr ⟨fun hc => absurd hc.locked.1 (ne_true_of_eq_false hr), rfl⟩
  · exact .inr ⟨by simp [ClearsDone], rfl⟩
  · exact .inr ⟨fun hc => absurd hb (ne_true_of_eq_false hc.1), rfl⟩
  · exact .inl ⟨⟨hb, .inl rfl⟩, rfl⟩
  · exact .inl ⟨⟨hb, .inr (.inl rfl)⟩, rfl⟩
  · exact .inr ⟨by simp [ClearsDone], rfl⟩
  · exact .inl ⟨clearsDone_wrCfg.mpr ⟨hb, hd, ha⟩, rfl⟩
  · exact .inr ⟨fun hc => hv (clearsDone_wrCfg.mp hc).2, by rw [refuseCfg_eq]⟩
  · exact .inl ⟨⟨hb, .inr (.inr (.inl ⟨_, _, _, _, _, rfl⟩))⟩, rfl⟩

theorem engineTurn_done {s t : State} (h : engineTurn s = .next t) :
    t.done = (s.busy || s.done) := by
  rcases engineTurn_cases h with ⟨hb, rfl⟩ | ⟨hb, r, -, rfl⟩
  · rw [hb, Bool.false_or]
  · rw [hb, Bool.true_or, finish_done]

/-- Settles O40, by `exec_done`, `engineTurn_done` and what reset does. -/
theorem doneLifetime : Obligations.DoneLifetime := by
  refine ⟨fun i s t h => ?_, fun s t h => ?_, fun s t h he => ?_⟩
  · rcases exec_done h with ⟨hc, hd⟩ | ⟨hc, hd⟩
    · exact ⟨fun _ => hd, fun hn => absurd hc hn⟩
    · exact ⟨fun hy => absurd hy hc, fun _ => hd⟩
  · rw [engineTurn_done h]
    exact ⟨fun hb => by rw [hb, Bool.true_or], fun hb => by rw [hb, Bool.false_or]⟩
  · rw [step_of_nextEvent_rst h he, assertReset_done]

/-! ### What sets and clears a flag of ERR (R32, R88, R140 to R147) -/

/-- The causes of an error lie in the busy bit alone, and not in the environment's fields. -/
theorem causes_dequeue {e : Error} {i : Instr} {s : State} :
    Causes e i s.dequeue ↔ Causes e i s := by
  cases e <;> rfl

/-- The cause of every error is a write (R145). -/
theorem Causes.isWrite {e : Error} {i : Instr} {s : State} (h : Causes e i s) :
    i.isWrite = true := by
  cases e with
  | cfg | alg =>
    obtain ⟨-, _, _, _, _, rfl, -⟩ := h
    rfl
  | cmd =>
    obtain ⟨-, _, rfl⟩ := h
    rfl
  | busy =>
    obtain ⟨-, hw, -⟩ := h
    exact hw

/-- Raising an error sets that error's flag and keeps the others (R144). -/
theorem set_get_iff (f : ErrFlags) (e e' : Error) :
    (f.set e').get e = true ↔ f.get e = true ∨ e = e' := by
  by_cases he : e = e'
  · subst he
    simp
  · simp [he]

/-- A refused write to `CFG` sets the flag of each failing check and keeps the others (R90). -/
theorem refuseCfg_get_iff (s : State) (e : Error) (a : BitVec 2) (d : BitVec 4) :
    (s.refuseCfg a d).err.get e = true ↔
      s.err.get e = true ∨ (e = .cfg ∧ ¬ validDigits d = true) ∨
        (e = .alg ∧ ¬ validAlg a = true) := by
  rw [refuseCfg_eq]
  cases e <;> simp [ErrFlags.get]

/-- A flag that is set after an instruction was set before or has its cause. -/
theorem exec_set_flag {i : Instr} {s t : State} {e : Error} (h : exec i s = .next t)
    (ht : t.err.get e = true) : s.err.get e = true ∨ Causes e i s := by
  rcases exec_cases h with ⟨rfl, -⟩ | ⟨w, -, rfl⟩ | ⟨_, m, -, rfl⟩ | ⟨hb, hw, hl, rfl⟩ | ⟨-, -, rfl⟩
    | ⟨-, -, rfl⟩ | ⟨hb, hi, rfl⟩ | ⟨-, _, _, _, _, -, -, -, rfl⟩ | ⟨hb, _, _, _, _, rfl, -, rfl⟩
    | ⟨-, _, _, _, _, _, -, rfl⟩
  · exact .inl ht
  · exact .inl ht
  · rw [clearFlags_err, clear_get, Bool.and_eq_true] at ht
    exact .inl ht.1
  · refine ((set_get_iff _ _ _).mp ht).imp_right ?_
    rintro rfl
    exact ⟨hb, hw, hl⟩
  · exact .inl ht
  · exact .inl ht
  · refine ((set_get_iff _ _ _).mp ht).imp_right ?_
    rintro rfl
    exact ⟨hb, hi⟩
  · exact .inl ht
  · refine ((refuseCfg_get_iff _ _ _ _).mp ht).imp_right ?_
    rintro (⟨rfl, hd⟩ | ⟨rfl, ha⟩)
    · exact ⟨hb, _, _, _, _, rfl, by simpa [validDigits_iff] using hd⟩
    · exact ⟨hb, _, _, _, _, rfl, by simpa [validAlg_iff_ne] using ha⟩
  · exact .inl ht

/-- A flag that was set before an instruction is set after it, unless a write to `ERR` selects it. -/
theorem exec_keeps_flag {i : Instr} {s t : State} {e : Error} (h : exec i s = .next t)
    (hs : s.err.get e = true) :
    t.err.get e = true ∨ ∃ ignored m, i = .wrErr ignored m ∧ m.getLsbD e.code = true := by
  rcases exec_cases h with ⟨rfl, -⟩ | ⟨w, -, rfl⟩ | ⟨_, m, rfl, rfl⟩ | ⟨-, -, -, rfl⟩ | ⟨-, -, rfl⟩
    | ⟨-, -, rfl⟩ | ⟨-, -, rfl⟩ | ⟨-, _, _, _, _, -, -, -, rfl⟩ | ⟨-, _, _, _, _, -, -, rfl⟩
    | ⟨-, _, _, _, _, _, -, rfl⟩
  · exact .inl hs
  · exact .inl hs
  · cases hm : m.getLsbD e.code with
    | true => exact .inr ⟨_, _, rfl, hm⟩
    | false => exact .inl (by rw [clearFlags_err, clear_get, hs, hm]; rfl)
  · exact .inl ((set_get_iff _ _ _).mpr (.inl hs))
  · exact .inl hs
  · exact .inl hs
  · exact .inl ((set_get_iff _ _ _).mpr (.inl hs))
  · exact .inl hs
  · exact .inl ((refuseCfg_get_iff _ _ _ _).mpr (.inl hs))
  · exact .inl hs

theorem engineTurn_err {s t : State} (h : engineTurn s = .next t) : t.err = s.err := by
  rcases engineTurn_cases h with ⟨-, rfl⟩ | ⟨-, r, -, rfl⟩ <;> rfl

/-- What a step does to `ERR`: it runs an instruction, keeps the register, or is the reset. -/
theorem step_err_cases {s t : State} (h : step s = .next t) :
    (∃ i, nextInstr s = some i ∧ exec i s.dequeue = .next t) ∨ t.err = s.err ∨
      (nextEvent s = .rst true ∧ t.err = ErrFlags.none) := by
  rcases step_cases h with ⟨i, hn, -, hi⟩ | ⟨-, he⟩ | ⟨he, rfl⟩ | ⟨-, rfl⟩
  · exact .inl ⟨i, hn, hi⟩
  · exact .inr (.inl ((engineTurn_err he).trans (dequeue_err s)))
  · exact .inr (.inr ⟨he, rfl⟩)
  · exact .inr (.inl rfl)

/-- Settles O38, by `exec_set_flag` and `exec_keeps_flag` for the host's moves. -/
theorem flagsAreStickyAndSetByHostWrites : Obligations.FlagsAreStickyAndSetByHostWrites := by
  intro s t e hx
  rcases step_err_cases hx with ⟨i, hn, hi⟩ | herr | ⟨he, herr⟩
  · refine ⟨fun hs ht => ?_, fun hs ht => ?_⟩
    · have hc : Causes e i s := causes_dequeue.mp
        ((exec_set_flag hi ht).resolve_left (ne_true_of_eq_false hs))
      exact ⟨i, hn, hc.isWrite, hc⟩
    · obtain ⟨ignored, m, rfl, hm⟩ :=
        (exec_keeps_flag (s := s.dequeue) hi hs).resolve_left (ne_true_of_eq_false ht)
      exact .inl ⟨ignored, m, hn, hm⟩
  · rw [herr]
    exact ⟨fun hs ht => absurd ht (ne_true_of_eq_false hs),
      fun hs ht => absurd hs (ne_true_of_eq_false ht)⟩
  · refine ⟨fun _ ht => ?_, fun _ _ => .inr he⟩
    rw [herr, none_get] at ht
    exact absurd ht Bool.false_ne_true

end Sys2Proof.Machine

namespace Sys2Proof.Machine

/-! ### Every read completes and changes nothing but its answer (R49, R81) -/

/-- Settles O13: the arm of each read is an answer on `rdata`, and no write is a read. -/
theorem readsChangeNothing : Obligations.ReadsChangeNothing := by
  intro i s h
  cases i with
  | rdCmd | rdStatus | rdErr | rdCfg | rdOffset | rdValue | rdCode | rdRsvd7 | rdRsvd8to15
  | rdDigestw => exact ⟨_, rfl⟩
  | _ => exact absurd h.symm Bool.false_ne_true

/-! ### Which accesses by byte address the port serves (R47, R50) -/

/-- The offsets the port can express: an access has one exactly when R47 admits it. -/
theorem accessOffset_eq_some_iff {a : Access} {off : Nat} :
    accessOffset a = some off ↔
      a.addr = Config.base + off ∧ off % 4 = 0 ∧ off ≤ 0x7C ∧ a.bytes = 4 := by
  have hsize : Config.windowSize = 128 := rfl
  rw [accessOffset, Option.ite_none_right_eq_some, Option.some.injEq]
  omega

theorem accessOffset_eq_none_iff {a : Access} :
    accessOffset a = none ↔
      ∀ off, a.addr = Config.base + off → off % 4 = 0 → off ≤ 0x7C → a.bytes ≠ 4 := by
  simp only [Option.eq_none_iff_forall_ne_some, ne_eq, accessOffset_eq_some_iff, not_and]

theorem hostAccess_of_offset {a : Access} {off : Nat} (s : State) (h : accessOffset a = some off) :
    hostAccess a s = hostTransaction (wordAtOffset a.write off a.data) s := by
  simp [hostAccess, accessWord, h]

theorem hostAccess_of_no_offset {a : Access} (s : State) (h : accessOffset a = none) :
    hostAccess a s = .refused .inexpressibleAccess := by
  simp [hostAccess, accessWord, h]

theorem step_of_nextEvent_access {s : State} {a : Access} (h : nextEvent s = .access a) :
    step s = hostAccess a s.dequeue := by
  rw [step, h, perform]

/-- Settles O6: the access is served where it has an offset the port can express, and refused where not. -/
theorem onlyWholeAlignedWordsAreServed : Obligations.OnlyWholeAlignedWordsAreServed := by
  intro s a he
  rw [step_of_nextEvent_access he]
  exact ⟨fun off haddr h4 hle hb =>
      hostAccess_of_offset _ (accessOffset_eq_some_iff.mpr ⟨haddr, h4, hle, hb⟩),
    fun h => hostAccess_of_no_offset _ (accessOffset_eq_none_iff.mpr h)⟩

/-! ### Reads and writes of several bytes (R43, R44) -/

/-- R43's sum, for every number of bytes. -/
theorem memRead_eq_sum (m : Memory) (addr n : Nat) :
    memRead m addr n
      = ((List.range n).map fun j => (m.read (addr + j)).toNat * 256 ^ (n - 1 - j)).sum := by
  induction n generalizing addr with
  | zero => rfl
  | succ n ih =>
    have hshift (j : Nat) : addr + 1 + j = addr + (j + 1) ∧ n - 1 - j = n - (j + 1) := by omega
    simp [memRead, ih, List.range_succ_eq_map, Function.comp_def, hshift]

/-- Settles O24: the sum is `memRead_eq_sum`, its width `memRead_lt`. -/
theorem memReadIsTheBigEndianSum : Obligations.MemReadIsTheBigEndianSum := by
  intro m addr n _ _ _
  refine ⟨memRead_eq_sum m addr n, ?_⟩
  rw [pow_mul]
  exact memRead_lt m addr n

/-- Settles O25: the bytes written are `read_memWrite_inside`, the others `read_memWrite_outside`, and the
form is kept by `memWrite_wf`. -/
theorem memWriteStoresBigEndianBytes : Obligations.MemWriteStoresBigEndianBytes := by
  intro m addr n v hwf _ _ hend _
  refine ⟨fun j hj => ?_, fun i hi => read_memWrite_outside m v hi, memWrite_wf hwf (by omega) v⟩
  rw [read_memWrite_inside hwf.1 hj, BitVec.toNat_ofNat]
  exact (Nat.and_two_pow_sub_one_eq_mod _ 8).symm

/-! ### The window among the digest words (R46) -/

/-- A read of several bytes is the reads of its two parts, joined. -/
theorem memRead_add (m : Memory) (addr a b : Nat) :
    memRead m addr (a + b) = memRead m addr a * 256 ^ b + memRead m (addr + a) b := by
  induction a generalizing addr with
  | zero => simp [memRead]
  | succ a ih =>
    rw [Nat.succ_add, memRead, memRead, ih, Nat.add_assoc addr 1 a, Nat.add_comm 1 a]
    ring

/-- The `n` bytes in the middle of a read: the `k` after them are shifted out, the `r` before them cut off. -/
theorem memRead_middle (m : Memory) (addr r n k : Nat) :
    memRead m addr (r + (n + k)) / 256 ^ k % 256 ^ n = memRead m (addr + r) n := by
  have hsplit : memRead m addr (r + (n + k))
      = memRead m (addr + r + n) k
        + 256 ^ k * (memRead m (addr + r) n + 256 ^ n * memRead m addr r) := by
    rw [memRead_add, memRead_add]
    ring
  rw [hsplit, Nat.add_mul_div_left _ _ (by positivity), Nat.div_eq_of_lt (memRead_lt _ _ _),
    Nat.zero_add, Nat.add_mul_mod_self_left, Nat.mod_eq_of_lt (memRead_lt _ _ _)]

/-- Two words that follow each other in the buffer, joined, are the read of their eight bytes. -/
theorem memReadWord_append_toNat (m : Memory) (addr : Nat) :
    (memReadWord m addr ++ memReadWord m (addr + 4)).toNat = memRead m addr 8 := by
  rw [BitVec.toNat_append, ← Nat.shiftLeft_add_eq_or_of_lt (BitVec.isLt _), Nat.shiftLeft_eq,
    memReadWord_toNat, memReadWord_toNat]
  exact (memRead_add m addr 4 4).symm

/-- The word `r` bytes into two joined words is the word read at that index. -/
theorem extractLsb'_memReadWord_append (m : Memory) (addr : Nat) {r : Nat} (hr : r ≤ 4) :
    (memReadWord m addr ++ memReadWord m (addr + 4)).extractLsb' (32 - 8 * r) 32
      = memReadWord m (addr + r) := by
  have hbits : 32 - 8 * r = 8 * (4 - r) := by omega
  have hbytes : 8 = r + (4 + (4 - r)) := by omega
  apply BitVec.eq_of_toNat_eq
  rw [BitVec.extractLsb'_toNat, memReadWord_append_toNat, memReadWord_toNat, Nat.shiftRight_eq_div_pow,
    hbits, pow_mul]
  calc memRead m addr 8 / 256 ^ (4 - r) % 256 ^ 4
      = memRead m addr (r + (4 + (4 - r))) / 256 ^ (4 - r) % 256 ^ 4 := by rw [← hbytes]
    _ = memRead m (addr + r) 4 := memRead_middle m addr r 4 (4 - r)

/-- Settles O27: the window is the word at the index `4 * (offset / 4) + offset % 4`, which
`extractLsb'_memReadWord_append` finds in the two joined words. -/
theorem windowStraddlesTwoWords : Obligations.WindowStraddlesTwoWords := by
  intro d o
  have hlt := o.isLt
  have hindex := Nat.div_add_mod o.toNat 4
  refine ⟨fun h => ?_, fun _ => ⟨?_, by omega⟩⟩
  · rw [windowOf, show 4 * (o.toNat / 4) = o.toNat by omega]
  · rw [windowOf, Nat.mul_add_one, extractLsb'_memReadWord_append d _ (by omega), hindex]

end Sys2Proof.Machine

namespace Sys2Proof.Machine

/-! ### The encoding, in both directions (R61, R63, R66) -/

/-- Settles O1: the words are fixed, and the decoder evaluates on each. -/
theorem specWordsDecode : Obligations.SpecWordsDecode := by
  unfold Obligations.SpecWordsDecode
  decide

/-- Settles O2, by `decode_encode`, which rests on the operand laws of each instruction. -/
theorem decodeOfEncodeIsIdentity : Obligations.DecodeOfEncodeIsIdentity :=
  fun _ => decode_encode

theorem decodeCommand_fields (data : Word) :
    (decodeCommand data).wellFormed = true ∧ (decodeCommand data).isWrite = true ∧
      (decodeCommand data).slot = .cmd ∧ (decodeCommand data).data = data := by
  rw [decodeCommand]
  split_ifs with h0 h1 h2
  · exact ⟨rfl, rfl, rfl, h0.symm⟩
  · exact ⟨rfl, rfl, rfl, h1.symm⟩
  · exact ⟨rfl, rfl, rfl, h2.symm⟩
  · refine ⟨?_, rfl, rfl, rfl⟩
    simp only [Instr.wellFormed, illegalCommandWord, Bool.and_eq_true, bne_iff_ne]
    exact ⟨⟨h0, h1⟩, h2⟩

/-- The operands of a write are its data, cut into fields: joined again they give it back. -/
theorem decodeWrite_data (sl : Slot) (data : Word) : (decodeWrite sl data).data = data := by
  cases sl with
  | cmd => exact (decodeCommand_fields data).2.2.2
  | err =>
    apply BitVec.eq_of_getLsbD_eq
    intro j hj
    rw [decodeWrite, getLsbD_errData]
    split_ifs with h
    · simp [h]
    · simp [show 4 + (j - 4) = j by omega, show j - 4 < 28 by omega]
  | cfg =>
    apply BitVec.eq_of_getLsbD_eq
    intro j hj
    rw [decodeWrite, getLsbD_cfgData]
    simp only [BitVec.getLsbD_extractLsb']
    split_ifs with h1 h2 h3
    · simp [h1]
    · simp [h2, show 4 + (j - 4) = j by omega]
    · simp [h3, show 8 + (j - 4 - 4) = j by omega]
    · simp [show 10 + (j - 4 - 4 - 2) = j by omega, show j - 4 - 4 - 2 < 22 by omega]
  | digestw k =>
    apply BitVec.eq_of_getLsbD_eq
    intro j hj
    rw [decodeWrite, getLsbD_digestwData]
    simp only [BitVec.getLsbD_extractLsb']
    split_ifs with h1 h2 h3
    · simp [h1]
    · simp [h2, show 8 + (j - 8) = j by omega]
    · simp [h3, show 16 + (j - 8 - 8) = j by omega]
    · simp [show 24 + (j - 8 - 8 - 8) = j by omega, show j - 8 - 8 - 8 < 8 by omega]
  | status | offset | value | code | rsvd7 | rsvd8to15 => rfl

/-- A decoded write is well formed, and a write to the slot given. -/
theorem decodeWrite_fields (sl : Slot) (data : Word) :
    (decodeWrite sl data).wellFormed = true ∧ (decodeWrite sl data).isWrite = true ∧
      (decodeWrite sl data).slot = sl := by
  cases sl with
  | cmd =>
    obtain ⟨hwf, hw, hs, -⟩ := decodeCommand_fields data
    exact ⟨hwf, hw, hs⟩
  | _ => exact ⟨rfl, rfl, rfl⟩

/-- A decoded read is well formed, and a read of the slot given. -/
theorem decodeRead_fields (sl : Slot) :
    (decodeRead sl).wellFormed = true ∧ (decodeRead sl).isWrite = false ∧
      (decodeRead sl).slot = sl := by
  cases sl <;> exact ⟨rfl, rfl, rfl⟩

/-- What a word that decodes is: a write, or a read without data. -/
theorem decode_cases {t : TWord} {i : Instr} (h : decode t = .ok i) :
    (tWe t = true ∧ i = decodeWrite (slotOfWidx (tWidx t)) (tData t)) ∨
    (tWe t = false ∧ tData t = 0 ∧ i = decodeRead (slotOfWidx (tWidx t))) := by
  unfold decode at h
  split_ifs at h with hw hd
  · exact .inl ⟨hw, (Except.ok.inj h).symm⟩
  · exact .inr ⟨eq_false_of_ne_true hw, hd, (Except.ok.inj h).symm⟩

/-- An instruction directed at the slot of a word, with its direction and data, is encoded as the word. -/
theorem encode_eq_of_fields {i : Instr} {t : TWord} (hw : i.isWrite = tWe t)
    (hs : i.slot = slotOfWidx (tWidx t)) (hd : i.data = tData t) : encode i = t := by
  rw [encode, hw, hs, hd, widxOfSlot_slotOfWidx, tWord_fields]

/-- Settles O3, by the two kinds of word that decode. -/
theorem encodeOfDecodeIsIdentity : Obligations.EncodeOfDecodeIsIdentity := by
  intro t i h
  rcases decode_cases h with ⟨hw, rfl⟩ | ⟨hw, hd, rfl⟩
  · obtain ⟨hwf, hwrite, hslot⟩ := decodeWrite_fields (slotOfWidx (tWidx t)) (tData t)
    exact ⟨hwf, encode_eq_of_fields (hwrite.trans hw.symm) hslot (decodeWrite_data _ _)⟩
  · obtain ⟨hwf, hread, hslot⟩ := decodeRead_fields (slotOfWidx (tWidx t))
    exact ⟨hwf, encode_eq_of_fields (hread.trans hw.symm) hslot ((data_of_read hread).trans hd.symm)⟩

/-! ### The decoder and the opcode table (R66) -/

/-- A word for each way the rows of the opcode table tell data apart: the three commands, and any other. -/
def dataClass (d : Word) : Word := if d = 0 ∨ d = 1 ∨ d = 2 then d else 3

theorem dataClass_mem (d : Word) : dataClass d ∈ [0, 1, 2, 3] := by
  rw [dataClass]
  split_ifs with h
  · rcases h with rfl | rfl | rfl <;> decide
  · decide

theorem eq_iff_dataClass_eq {d c : Word} (hc : c = 0 ∨ c = 1 ∨ c = 2) :
    dataClass d = c ↔ d = c := by
  rw [dataClass]
  split_ifs with h
  · rfl
  · refine iff_of_false ?_ ?_
    · rcases hc with rfl | rfl | rfl <;> decide
    · rintro rfl
      exact h hc

/-- A row fixes no bit of the data, or all of them, to one of the three commands. -/
def SelectsDataByClass (row : OpcodeRow) : Prop :=
  tData row.mask = 0 ∨
    (tData row.mask = BitVec.allOnes 32 ∧
      (tData row.pattern = 0 ∨ tData row.pattern = 1 ∨ tData row.pattern = 2))

theorem opcodeTable_selectsDataByClass : ∀ row ∈ opcodeTable, SelectsDataByClass row := by
  unfold SelectsDataByClass
  decide

theorem row_matches_iff (row : OpcodeRow) (we : Bool) (w : BitVec 5) (d : Word) :
    tWord we w d &&& row.mask = row.pattern ↔
      (we && tWe row.mask) = tWe row.pattern ∧ w &&& tWidx row.mask = tWidx row.pattern ∧
        d &&& tData row.mask = tData row.pattern := by
  conv_lhs => rw [← tWord_fields row.mask, ← tWord_fields row.pattern, tWord_and, tWord_inj]

theorem row_matches_dataClass {row : OpcodeRow} (h : SelectsDataByClass row) (we : Bool)
    (w : BitVec 5) (d : Word) :
    (tWord we w d &&& row.mask == row.pattern)
      = (tWord we w (dataClass d) &&& row.mask == row.pattern) := by
  rw [Bool.eq_iff_iff, beq_iff_eq, beq_iff_eq, row_matches_iff, row_matches_iff]
  rcases h with hm | ⟨hm, hp⟩
  · simp [hm]
  · simp only [hm, BitVec.and_allOnes, eq_iff_dataClass_eq hp]

theorem tableMnemonic_dataClass (we : Bool) (w : BitVec 5) (d : Word) :
    tableMnemonic (tWord we w d) = tableMnemonic (tWord we w (dataClass d)) := by
  rw [tableMnemonic, tableMnemonic]
  congr 1
  exact List.find?_congr fun row hrow =>
    row_matches_dataClass (opcodeTable_selectsDataByClass row hrow) we w d

theorem mnemonic_decodeWrite_dataClass (sl : Slot) (d : Word) :
    (decodeWrite sl d).mnemonic = (decodeWrite sl (dataClass d)).mnemonic := by
  cases sl with
  | cmd =>
    have hclass {c : Word} (hc : c = 0 ∨ c = 1 ∨ c = 2) := eq_iff_dataClass_eq (d := d) hc
    simp only [decodeWrite, decodeCommand, hclass (.inl rfl), hclass (.inr (.inl rfl)),
      hclass (.inr (.inr rfl))]
    split_ifs <;> rfl
  | _ => rfl

theorem decodedMnemonic_dataClass (we : Bool) (w : BitVec 5) (d : Word) :
    (decode (tWord we w d)).toOption.map Instr.mnemonic
      = (decode (tWord we w (dataClass d))).toOption.map Instr.mnemonic := by
  cases we with
  | true => simpa [decode, Except.toOption] using mnemonic_decodeWrite_dataClass _ d
  | false =>
    have hclass : dataClass d = 0 ↔ d = 0 := eq_iff_dataClass_eq (.inl rfl)
    simp only [decode, tWe_tWord, tData_tWord, tWidx_tWord, hclass, Bool.false_eq_true, if_false]

/-- The finite part, one evaluation over the word indices for each direction and class of data. -/
theorem decodedMnemonic_eq_tableMnemonic (we : Bool) (w : BitVec 5) {d : Word}
    (hd : d ∈ [0, 1, 2, 3]) :
    (decode (tWord we w d)).toOption.map Instr.mnemonic = tableMnemonic (tWord we w d) := by
  simp only [List.mem_cons, List.not_mem_nil, or_false] at hd
  cases we <;> obtain rfl | rfl | rfl | rfl := hd <;> revert w <;> decide

/-- Settles O4: both sides depend on the data by its class alone, and there are four classes. -/
theorem decodeFollowsFirstMatchingRow : Obligations.DecodeFollowsFirstMatchingRow := by
  intro t
  rw [← tWord_fields t, decodedMnemonic_dataClass, tableMnemonic_dataClass]
  exact decodedMnemonic_eq_tableMnemonic _ _ (dataClass_mem _)

/-! ### The word of a transaction at a byte offset (R61) -/

theorem widx_of_offset {off : Nat} (h : off ≤ 0x7C) : (BitVec.ofNat 5 (off / 4)).toNat = off / 4 := by
  rw [BitVec.toNat_ofNat]
  omega

/-- Settles O5: the number is `tWord_toNat`, and the fields are those the word is built from. -/
theorem transactionWordFormula : Obligations.TransactionWordFormula := by
  intro off data _ hle
  have hwidx := widx_of_offset hle
  refine ⟨?_, ?_, fun we => ⟨tWe_tWord _ _ _, ?_, tData_tWord _ _ _⟩⟩
  · simp [wordAtOffset, tWord_toNat, hwidx]
  · simp [wordAtOffset, tWord_toNat, hwidx]
  · exact (congrArg BitVec.toNat (tWidx_tWord _ _ _)).trans hwidx

end Sys2Proof.Machine

namespace Sys2Proof.Machine

/-! ### A digest as words (R43, R63, R74) -/

/-- The big-endian number of a sequence of bytes, after the number of those before it. -/
def bigEndian (acc : Nat) (g : List Byte) : Nat := g.foldl (fun acc b => 256 * acc + b.toNat) acc

/-- The big-endian number of bytes of a sequence is what is read where they stand in a buffer. -/
theorem bigEndian_eq_memRead {m : Memory} {g : List Byte} {start n : Nat}
    (hm : ∀ i, i < g.length → m.read i = g.getD i 0) (hlen : start + n ≤ g.length) (acc : Nat) :
    bigEndian acc ((g.drop start).take n) = acc * 256 ^ n + memRead m start n := by
  induction n generalizing start acc with
  | zero => simp [bigEndian, memRead]
  | succ n ih =>
    have hlt : start < g.length := by omega
    have hread : m.read start = g[start] := by rw [hm start hlt, List.getD_eq_getElem _ _ hlt]
    rw [List.drop_eq_getElem_cons hlt, List.take_succ_cons]
    calc bigEndian acc (g[start] :: (g.drop (start + 1)).take n)
        = bigEndian (256 * acc + g[start].toNat) ((g.drop (start + 1)).take n) := rfl
      _ = (256 * acc + g[start].toNat) * 256 ^ n + memRead m (start + 1) n := ih (by omega) _
      _ = acc * 256 ^ (n + 1) + memRead m start (n + 1) := by
        rw [memRead, hread]
        ring

/-- A number with a byte joined to it. -/
theorem toNat_append_byte {n : Nat} (w : BitVec n) (b : Byte) :
    (w ++ b).toNat = 256 * w.toNat + b.toNat := by
  rw [BitVec.toNat_append, ← Nat.shiftLeft_add_eq_or_of_lt b.isLt, Nat.shiftLeft_eq, Nat.mul_comm]

theorem digestwData_eq_ofNat (b0 b1 b2 b3 : Byte) :
    digestwData b0 b1 b2 b3 = BitVec.ofNat 32 (bigEndian 0 [b0, b1, b2, b3]) := by
  have hnum : (digestwData b0 b1 b2 b3).toNat = bigEndian 0 [b0, b1, b2, b3] := by
    simp only [digestwData, toNat_append_byte, bigEndian, List.foldl_cons, List.foldl_nil,
      Nat.mul_zero, Nat.zero_add]
  rw [← hnum, BitVec.ofNat_toNat, BitVec.setWidth_eq]

/-- Byte `j` of a digest word, the first the most significant (R63). -/
theorem ofNat_shiftRight_digestwData (b0 b1 b2 b3 : Byte) {j : Nat} (hj : j < 4) :
    BitVec.ofNat 8 ((digestwData b0 b1 b2 b3).toNat >>> (8 * (4 - 1 - j)))
      = [b0, b1, b2, b3].getD j 0 := by
  obtain ⟨-, h0, h1, h2, h3⟩ := Instr.wrDigestw.inj (Laws.Operands.wrDigestw 0 b0 b1 b2 b3 rfl)
  obtain rfl | rfl | rfl | rfl : j = 0 ∨ j = 1 ∨ j = 2 ∨ j = 3 := by omega
  · exact h0
  · exact h1
  · exact h2
  · exact h3

/-! ### The pseudo-instructions (R74) -/

theorem encode_wrDigestw {k : Nat} (hk : k < 16) (b0 b1 b2 b3 : Byte) :
    encode (.wrDigestw (BitVec.ofNat 4 k) b0 b1 b2 b3)
      = wordAtOffset true (0x40 + 4 * k) (BitVec.ofNat 32 (bigEndian 0 [b0, b1, b2, b3])) := by
  have hwidx : widxOfSlot (.digestw (BitVec.ofNat 4 k)) = BitVec.ofNat 5 ((0x40 + 4 * k) / 4) := by
    revert k
    decide
  rw [← digestwData_eq_ofNat, wordAtOffset, ← hwidx]
  rfl

/-- A list that does not begin with four bytes has fewer. -/
theorem length_lt_four {g : List Byte}
    (h : ∀ b0 b1 b2 b3 rest, g = b0 :: b1 :: b2 :: b3 :: rest → False) : g.length < 4 := by
  match g with
  | [] | [_] | [_, _] | [_, _, _] => simp
  | b0 :: b1 :: b2 :: b3 :: rest => exact (h b0 b1 b2 b3 rest rfl).elim

theorem encode_lddigFrom {k : Nat} {g : List Byte} (hk : k + g.length / 4 ≤ 16) :
    (lddigFrom k g).map encode = (List.range (g.length / 4)).map fun j =>
      wordAtOffset true (0x40 + 4 * (k + j))
        (BitVec.ofNat 32 (bigEndian 0 ((g.drop (4 * j)).take 4))) := by
  induction k, g using lddigFrom.induct with
  | case1 k b0 b1 b2 b3 rest ih =>
    have hlen : (b0 :: b1 :: b2 :: b3 :: rest).length / 4 = rest.length / 4 + 1 := by
      simp only [List.length_cons]
      omega
    rw [hlen] at hk ⊢
    rw [lddigFrom, List.map_cons, encode_wrDigestw (by omega), ih (by omega), List.range_succ_eq_map,
      List.map_cons, List.map_map]
    refine List.cons_eq_cons.mpr ⟨by simp, List.map_congr_left fun j _ => ?_⟩
    simp [Nat.mul_succ, Nat.add_assoc, Nat.add_comm 1 j]
  | case2 g k hshort =>
    have hlen := length_lt_four hshort
    simp [lddigFrom, Nat.div_eq_of_lt hlen]

theorem length_lddig {g : List Byte} (h : g.length = 20 ∨ g.length = 32 ∨ g.length = 64) :
    (lddig g).length = g.length / 4 := by
  have hwords := encode_lddigFrom (k := 0) (g := g) (by omega)
  simpa [lddig] using congrArg List.length hwords

/-- Settles O55: `SETCFG` by its nine expansions, `LDDIG` by `encode_lddigFrom`. -/
theorem pseudoInstructionsExpand : Obligations.PseudoInstructionsExpand := by
  refine ⟨fun digits alg => ?_, by decide, fun g hg => ?_⟩
  · revert digits
    cases alg <;> decide
  · have hwords := encode_lddigFrom (k := 0) (g := g) (by omega)
    simpa only [Nat.zero_add, lddig, bigEndian] using hwords

/-! ### Loading a digest (R74, R100, R101) -/

/-- A write of a digest word leaves its four bytes in index order at `4k`. -/
theorem read_storeDigestw {s : State} (h : s.digest.wf) (k : BitVec 4) (b0 b1 b2 b3 : Byte) {j : Nat}
    (hj : j < 4) :
    (s.storeDigestw k (digestwData b0 b1 b2 b3)).digest.read (digestwIndex k + j)
      = [b0, b1, b2, b3].getD j 0 := by
  rw [storeDigestw_digest, read_memWrite_inside h.1 hj, ofNat_shiftRight_digestwData _ _ _ _ hj]

theorem exec_wrDigestw_of_idle {s : State} (hb : s.busy = false) (k : BitVec 4) (b0 b1 b2 b3 : Byte) :
    exec (.wrDigestw k b0 b1 b2 b3) s = .next (s.storeDigestw k (digestwData b0 b1 b2 b3)) :=
  congrArg Host.Outcome.next (unlessBusy_idle hb)

theorem execAll_cons {i : Instr} {s t : State} (is : List Instr) (h : exec i s = .next t) :
    execAll (i :: is) s = execAll is t := by
  simp [execAll, h]

/-- What the word writes of a sequence of whole words leave, from word `k` on. -/
structure LoadedFrom (k : Nat) (g : List Byte) (s t : State) : Prop where
  frame : t = { s with digest := t.digest, done := t.done }
  done : t.done = (s.done && g.isEmpty)
  wf : t.digest.wf
  inside : ∀ i, i < g.length → t.digest.read (4 * k + i) = g.getD i 0
  outside : ∀ i, i < 4 * k ∨ 4 * k + g.length ≤ i → t.digest.read i = s.digest.read i

/-- The write of the first word, before those of the rest. -/
theorem LoadedFrom.cons {k : Nat} {b0 b1 b2 b3 : Byte} {g : List Byte} {s t : State} (hk : k < 16)
    (hwf : s.digest.wf)
    (h : LoadedFrom (k + 1) g (s.storeDigestw (BitVec.ofNat 4 k) (digestwData b0 b1 b2 b3)) t) :
    LoadedFrom k (b0 :: b1 :: b2 :: b3 :: g) s t := by
  have hindex : digestwIndex (BitVec.ofNat 4 k) = 4 * k := by
    rw [digestwIndex, BitVec.toNat_ofNat, Nat.mod_eq_of_lt (by omega)]
  have hg : b0 :: b1 :: b2 :: b3 :: g = [b0, b1, b2, b3] ++ g := rfl
  refine ⟨h.frame, h.done.trans (by simp), h.wf, fun i hi => ?_, fun i hi => ?_⟩
  · rw [hg] at hi ⊢
    by_cases hlt : i < 4
    · rw [h.outside _ (by omega), ← hindex, read_storeDigestw hwf _ _ _ _ _ hlt,
        List.getD_append _ _ _ _ hlt]
    · rw [List.getD_append_right _ _ _ _ (by simpa using hlt),
        show 4 * k + i = 4 * (k + 1) + (i - 4) by omega]
      exact h.inside _ (by simp at hi; omega)
  · simp only [List.length_cons] at hi
    rw [h.outside i (by omega), storeDigestw_digest, read_memWrite_outside _ _ (by omega)]

theorem execAll_lddigFrom {k : Nat} {g : List Byte} {s : State} (hb : s.busy = false)
    (hwf : s.digest.wf) (hlen : 4 * k + g.length ≤ 64) (hwords : g.length % 4 = 0) :
    ∃ t, execAll (lddigFrom k g) s = .next t ∧ LoadedFrom k g s t := by
  induction k, g using lddigFrom.induct generalizing s with
  | case1 k b0 b1 b2 b3 rest ih =>
    simp only [List.length_cons] at hlen hwords
    have hfirst := exec_wrDigestw_of_idle hb (BitVec.ofNat 4 k) b0 b1 b2 b3
    obtain ⟨t, hx, ht⟩ := ih (s := s.storeDigestw (BitVec.ofNat 4 k) (digestwData b0 b1 b2 b3)) hb
      (memWrite_wf hwf (digestwIndex_le _) _) (by omega) (by omega)
    exact ⟨t, (execAll_cons _ hfirst).trans hx, ht.cons (by omega) hwf⟩
  | case2 g k hshort =>
    have := length_lt_four hshort
    obtain rfl : g = [] := List.eq_nil_of_length_eq_zero (by omega)
    exact ⟨s, rfl, rfl, by simp, hwf, by simp, fun _ _ => rfl⟩

/-- Settles O23: the writes from word 0 on, of a sequence that is not empty. -/
theorem loadedDigestStandsInTheBuffer : Obligations.LoadedDigestStandsInTheBuffer := by
  intro s g hb hwf hg
  obtain ⟨t, hx, ht⟩ := execAll_lddigFrom (k := 0) (g := g) hb hwf (by omega) (by omega)
  have hdone : t.done = false := by
    have hne : g ≠ [] := fun h => by simp [h] at hg
    simp [ht.done, hne]
  refine ⟨length_lddig hg, t, hx, ?_, ht.wf, fun i hi => ?_, fun i hi => ht.outside i (by omega)⟩
  · rw [← hdone]
    exact ht.frame
  · simpa using ht.inside i hi

end Sys2Proof.Machine

namespace Sys2Proof.Machine

/-! ### The truncation of a digest is the source's (R2, R112 to R118) -/

/-- The datapath's results, of a buffer that holds the digest, are those of the source on its bytes. -/
theorem truncateLen_eq_source {m : Memory} {g : List Byte} {n : BitVec 4}
    (hm : ∀ i, i < g.length → m.read i = g.getD i 0) (hlen : 20 ≤ g.length)
    (hn : validDigits n = true) :
    (truncateLen m g.length n).offset.toNat = sourceOffset g ∧
      (truncateLen m g.length n).value.toNat = sourceValue g ∧
      (truncateLen m g.length n).code.toNat = sourceTruncate g n.toNat := by
  have hoffset : (offsetOf m g.length).toNat = sourceOffset g := by
    rw [offsetOf_toNat, hm _ (by omega)]
    exact (Nat.and_two_pow_sub_one_eq_mod _ 4).symm
  have hindex := windowIndex_le (offsetOf m g.length)
  have hwindow : memRead m (offsetOf m g.length).toNat 4 = sourceWindow g := by
    have hbytes := bigEndian_eq_memRead (start := (offsetOf m g.length).toNat) (n := 4) hm (by omega) 0
    rw [Nat.zero_mul, Nat.zero_add] at hbytes
    rw [← hbytes, hoffset]
    rfl
  have hvalue : (truncateLen m g.length n).value.toNat = sourceValue g := by
    rw [truncateLen, mask31_toNat, windowOf_toNat, hwindow]
    exact (Nat.and_two_pow_sub_one_eq_mod _ 31).symm
  exact ⟨hoffset, hvalue, (reduce_toNat _ hn).trans (congrArg (· % 10 ^ n.toNat) hvalue)⟩

/-- The inputs of an operation: the algorithm code and the digit count, and the digest in the buffer. -/
def Configured (g : List Byte) (n : BitVec 4) (a : BitVec 2) (s : State) : Prop :=
  s.alg = a ∧ s.digits = n ∧ ∀ i, i < g.length → s.digest.read i = g.getD i 0

/-- The engine is idle after a completion that left the source's code. -/
def HasCode (g : List Byte) (n : BitVec 4) (s : State) : Prop :=
  s.busy = false ∧ s.done = true ∧ s.code.toNat = sourceTruncate g n.toNat

theorem engineTurn_of_idle {s : State} (hb : s.busy = false) : engineTurn s = .next s := by
  simp [engineTurn, hb]

/-- The completion on these inputs leaves the source's code, and the inputs and `ERR` as they were. -/
theorem engineTurn_of_configured {g : List Byte} {n : BitVec 4} {a : BitVec 2} {s : State}
    (h : Configured g n a s) (ha : dlen a = some g.length) (hn : validDigits n = true)
    (hb : s.busy = true) :
    ∃ t, engineTurn s = .next t ∧ t.rst = s.rst ∧ t.err = s.err ∧ Configured g n a t ∧
      HasCode g n t := by
  obtain ⟨halg, hdigits, hdigest⟩ := h
  have hlen : 20 ≤ g.length := by
    have := dlen_cases ha
    omega
  have htrunc : truncate s.digest s.alg s.digits = .ok (truncateLen s.digest g.length n) := by
    rw [halg, hdigits, truncate_ok ha hn]
  obtain ⟨-, -, hcode⟩ := truncateLen_eq_source hdigest hlen hn
  generalize truncateLen s.digest g.length n = r at htrunc hcode
  refine ⟨s.finish r.offset r.value r.code, ?_, rfl, rfl, ⟨halg, hdigits, hdigest⟩, rfl, rfl, hcode⟩
  simp only [engineTurn, hb, if_true, complete, htrunc]

/-! ### The turns of a driver with the engine (R74) -/

/-- A turn at a line that is a transaction runs it, records what it read, and goes on to the next line. -/
theorem takeTurn_instr {d : Driver} {i : Instr} {rest : List DriverOp} {t : State}
    (hp : d.program = .instr i :: rest) (hr : d.machine.rst = false) (hwf : i.wellFormed = true)
    (hx : exec i { d.machine with rdata := none } = .next t) :
    takeTurn .driver d = .next {
      program := rest
      machine := t
      trace := d.trace ++ (t.rdata.map fun w => (i.slot, w)).toList } := by
  rw [takeTurn_driver hp hr (decode_encode hwf)]
  exact congrArg (afterMove · _) hx

/-- A turn at a `WAIT` reads `STATUS`, and goes on to the next line where the machine is idle. -/
theorem takeTurn_wait {d : Driver} {rest : List DriverOp} (hp : d.program = .wait :: rest)
    (hr : d.machine.rst = false) :
    takeTurn .driver d = .next {
      program := if d.machine.busy then .wait :: rest else rest
      machine := { d.machine with rdata := some (statusWord d.machine.done d.machine.busy) }
      trace := d.trace ++ [(.status, statusWord d.machine.done d.machine.busy)] } := by
  have hprogram : (if DriverOp.wait.ended (some (statusWord d.machine.done d.machine.busy)) then rest
      else .wait :: rest) = if d.machine.busy then .wait :: rest else rest := by
    rw [ended_wait, statusWord_bit0]
    cases d.machine.busy <;> rfl
  rw [takeTurn_driver hp hr (decode_encode rfl), ← hprogram]
  rfl

/-- Settles O56, by `takeTurn_wait`: bit 0 of the word read is `BUSY`. -/
theorem waitReadsStatusUntilIdle : Obligations.WaitReadsStatusUntilIdle := by
  intro d rest hp hr
  refine ⟨statusWord d.machine.done d.machine.busy, statusWord_bit0 _ _, ?_⟩
  rw [takeTurn_wait hp hr, statusWord_bit0]

/-- The turn of an idle engine takes the answer off `rdata`, and changes nothing else. -/
theorem takeTurn_engine_of_idle {d : Driver} (hb : d.machine.busy = false) :
    takeTurn (.other .engine) d
      = .next { d with machine := { d.machine with rdata := none } } := by
  rw [takeTurn_engine, engineTurn_of_idle (s := { d.machine with rdata := none }) hb]
  rfl

/-- What the turns of the driver and of the engine keep, every run of the two keeps, and goes on. -/
theorem drive_keeps {P : Driver → Prop}
    (hdriver : ∀ d, P d → ∃ d', takeTurn .driver d = .next d' ∧ P d')
    (hengine : ∀ d, P d → ∃ d', takeTurn (.other .engine) d = .next d' ∧ P d')
    {turns : List Turn} (hturns : ∀ e, .other e ∈ turns → e = .engine) {d : Driver} (h : P d) :
    ∃ d', drive turns d = .next d' ∧ P d' := by
  induction turns generalizing d with
  | nil => exact ⟨d, rfl, h⟩
  | cons turn turns ih =>
    have hturn : ∃ d₁, takeTurn turn d = .next d₁ ∧ P d₁ := by
      cases turn with
      | driver => exact hdriver d h
      | other e => exact hturns e (List.mem_cons_self ..) ▸ hengine d h
    obtain ⟨d₁, hx, h₁⟩ := hturn
    obtain ⟨d', hd', h'⟩ := ih (fun e he => hturns e (List.mem_cons_of_mem _ he)) h₁
    exact ⟨d', (drive_cons turns hx).trans hd', h'⟩

/-! ### Setting the inputs up (R74, R90, R100) -/

/-- The writes an idle machine accepts as inputs of an operation: a valid configuration, a digest word. -/
def SetsInputs (i : Instr) : Prop :=
  (∃ a n, i = .wrCfg 0 a 0 n ∧ validDigits n = true ∧ validAlg a = true) ∨
    ∃ k b0 b1 b2 b3, i = .wrDigestw k b0 b1 b2 b3

theorem exec_wrCfg_of_idle {s : State} (hb : s.busy = false) (hi : BitVec 22) (lo : BitVec 4)
    {a : BitVec 2} {n : BitVec 4} (hn : validDigits n = true) (ha : validAlg a = true) :
    exec (.wrCfg hi a lo n) s = .next (s.configure a n) := by
  have hcfg : s.writeCfg a n = s.configure a n := (writeCfg_eq s a n).trans (if_pos ⟨hn, ha⟩)
  exact congrArg Host.Outcome.next ((unlessBusy_idle hb).trans hcfg)

theorem SetsInputs.wellFormed {i : Instr} (h : SetsInputs i) : i.wellFormed = true := by
  rcases h with ⟨_, _, rfl, -⟩ | ⟨_, _, _, _, _, rfl⟩ <;> rfl

/-- An idle machine accepts the writes of inputs: they change the inputs and clear `DONE`. -/
theorem SetsInputs.exec_idle {i : Instr} {s : State} (h : SetsInputs i) (hb : s.busy = false) :
    ∃ t, exec i s = .next t ∧
      t = { s with digest := t.digest, alg := t.alg, digits := t.digits, done := false } := by
  rcases h with ⟨a, n, rfl, hn, ha⟩ | ⟨k, b0, b1, b2, b3, rfl⟩
  · exact ⟨_, exec_wrCfg_of_idle hb 0 0 hn ha, rfl⟩
  · exact ⟨_, exec_wrDigestw_of_idle hb k b0 b1 b2 b3, rfl⟩

theorem setsInputs_lddigFrom {k : Nat} {g : List Byte} {i : Instr} (h : i ∈ lddigFrom k g) :
    SetsInputs i := by
  induction k, g using lddigFrom.induct with
  | case1 k b0 b1 b2 b3 rest ih =>
    rw [lddigFrom, List.mem_cons] at h
    exact h.elim (fun he => .inr ⟨_, _, _, _, _, he⟩) ih
  | case2 g k hshort => simp [lddigFrom] at h

theorem validAlg_algCode (alg : AlgName) : validAlg (algCode alg) = true := by
  cases alg <;> rfl

/-- `SETCFG` and `LDDIG`, one write after another, leave an idle machine with their operands as inputs. -/
theorem execAll_setcfg_lddig {s : State} {g : List Byte} {n : BitVec 4} {alg : AlgName}
    (hb : s.busy = false) (hwf : s.digest.wf) (hlen : dlen (algCode alg) = some g.length)
    (hn : validDigits n = true) :
    ∃ t, execAll (setcfg n alg ++ lddig g) s = .next t ∧ Configured g n (algCode alg) t := by
  have hg := dlen_cases hlen
  obtain ⟨t, hx, ht⟩ := execAll_lddigFrom (k := 0) (g := g) (s := s.configure (algCode alg) n) hb hwf
    (by omega) (by omega)
  have hcfg := exec_wrCfg_of_idle hb 0 0 hn (validAlg_algCode alg)
  refine ⟨t, (execAll_cons _ hcfg).trans hx, ?_, ?_, fun i hi => ?_⟩
  · rw [ht.frame, configure_alg]
  · rw [ht.frame, configure_digits]
  · simpa using ht.inside i hi

/-- What a driver has before it in the lines that set the inputs up: writes that an idle machine accepts one
after another, which leave the inputs of the operation, and then the lines `rest`. -/
def SettingUp (g : List Byte) (n : BitVec 4) (a : BitVec 2) (rest : List DriverOp) (d : Driver) :
    Prop :=
  d.machine.busy = false ∧ ∃ is t, d.program = is.map .instr ++ rest ∧ (∀ i ∈ is, SetsInputs i) ∧
    execAll is { d.machine with rdata := none } = .next t ∧ Configured g n a t

/-- A turn of the driver in the lines that set the inputs up issues one of them, unless none is left. -/
theorem SettingUp.driverTurn {g : List Byte} {n : BitVec 4} {a : BitVec 2} {rest : List DriverOp}
    {d : Driver} (h : SettingUp g n a rest d) (hr : d.machine.rst = false) :
    (d.program = rest ∧ Configured g n a d.machine) ∨
    ∃ d', takeTurn .driver d = .next d' ∧ SettingUp g n a rest d' ∧ d'.trace = d.trace ∧
      d'.machine.rst = d.machine.rst ∧ d'.machine.err = d.machine.err := by
  obtain ⟨hb, is, t, hp, his, hx, ht⟩ := h
  cases is with
  | nil =>
    obtain rfl := Host.Outcome.next.inj hx
    exact .inl ⟨hp, ht⟩
  | cons i is =>
    have hi : SetsInputs i := his i List.mem_cons_self
    obtain ⟨u, hu, hframe⟩ := hi.exec_idle (s := { d.machine with rdata := none }) hb
    have hanswer : u.rdata = none := by rw [hframe]
    refine .inr ⟨_, takeTurn_instr hp hr hi.wellFormed hu,
      ⟨?_, is, t, rfl, fun j hj => his j (List.mem_cons_of_mem _ hj), ?_, ht⟩, ?_, ?_, ?_⟩
    · rw [hframe]
      exact hb
    · rw [execAll_cons is hu, hframe] at hx
      rw [hframe]
      exact hx
    · simp [hanswer]
    · rw [hframe]
    · rw [hframe]

/-! ### The run of `TRUNCATE` (R74, R118) -/

/-- Where a run of `TRUNCATE` stands, with what it has read. -/
inductive TruncatePhase (g : List Byte) (n : BitVec 4) (a : BitVec 2) (d : Driver) : Prop
  | settingUp (h : SettingUp g n a [.instr .trunc, .wait, .instr .rdCode] d) (ht : d.trace = [])
  | waiting (k : Nat) (hp : d.program = [.wait, .instr .rdCode]) (h : Configured g n a d.machine)
      (hm : (d.machine.busy = true ∧ d.machine.done = false) ∨ HasCode g n d.machine)
      (ht : d.trace = List.replicate k (.status, 0x1))
  | reading (k : Nat) (hp : d.program = [.instr .rdCode]) (h : Configured g n a d.machine)
      (hm : HasCode g n d.machine) (ht : d.trace = List.replicate k (.status, 0x1) ++ [(.status, 0x2)])
  | finished (k : Nat) (code : Word) (hp : d.program = []) (h : Configured g n a d.machine)
      (hm : HasCode g n d.machine) (hcode : code.toNat = sourceTruncate g n.toNat)
      (ht : d.trace = List.replicate k (.status, 0x1) ++ [(.status, 0x2), (.code, code)])

/-- What every turn of a run of `TRUNCATE` keeps: outside reset, `ERR` as it was, and a phase of the run. -/
structure TruncateRun (e : ErrFlags) (g : List Byte) (n : BitVec 4) (a : BitVec 2) (d : Driver) :
    Prop where
  released : d.machine.rst = false
  err : d.machine.err = e
  phase : TruncatePhase g n a d

theorem TruncateRun.driverTurn {e : ErrFlags} {g : List Byte} {n : BitVec 4} {a : BitVec 2}
    {d : Driver} (h : TruncateRun e g n a d) :
    ∃ d', takeTurn .driver d = .next d' ∧ TruncateRun e g n a d' := by
  obtain ⟨hr, herr, hphase⟩ := h
  cases hphase with
  | settingUp hset ht =>
    rcases hset.driverTurn hr with ⟨hp, hc⟩ | ⟨d', hx, hset', ht', hr', herr'⟩
    · have hx : exec .trunc { d.machine with rdata := none }
          = .next (State.acceptTrunc { d.machine with rdata := none }) :=
        congrArg Host.Outcome.next (unlessBusy_idle (s := { d.machine with rdata := none }) hset.1)
      exact ⟨_, takeTurn_instr hp hr rfl hx, hr, herr,
        .waiting 0 rfl hc (.inl ⟨rfl, rfl⟩) (by simp [ht])⟩
    · exact ⟨d', hx, hr'.trans hr, herr'.trans herr, .settingUp hset' (ht'.trans ht)⟩
  | waiting k hp hc hm ht =>
    refine ⟨_, takeTurn_wait hp hr, hr, herr, ?_⟩
    rcases hm with ⟨hb, hd⟩ | hm
    · refine .waiting (k + 1) (by simp [hb]) hc (.inl ⟨hb, hd⟩) ?_
      rw [List.replicate_succ', ht, hb, hd]
      rfl
    · have ⟨hb, hd, _⟩ := hm
      refine .reading k (by simp [hb]) hc hm ?_
      rw [ht, hb, hd]
      rfl
  | reading k hp hc hm ht =>
    have ⟨_, _, hcode⟩ := hm
    refine ⟨_, takeTurn_instr hp hr rfl rfl, hr, herr,
      .finished k (d.machine.code.setWidth 32) rfl hc hm ?_ ?_⟩
    · rw [BitVec.toNat_setWidth_of_le (by decide)]
      exact hcode
    · rw [ht, List.append_assoc]
      rfl
  | finished k code hp hc hm hcode ht =>
    exact ⟨d, takeTurn_driver_nil hp, hr, herr, .finished k code hp hc hm hcode ht⟩

theorem TruncateRun.engineTurn {e : ErrFlags} {g : List Byte} {n : BitVec 4} {a : BitVec 2}
    {d : Driver} (h : TruncateRun e g n a d) (ha : dlen a = some g.length)
    (hn : validDigits n = true) :
    ∃ d', takeTurn (.other .engine) d = .next d' ∧ TruncateRun e g n a d' := by
  obtain ⟨hr, herr, hphase⟩ := h
  cases hphase with
  | settingUp hset ht =>
    exact ⟨_, takeTurn_engine_of_idle hset.1, hr, herr, .settingUp hset ht⟩
  | waiting k hp hc hm ht =>
    rcases hm with ⟨hb, -⟩ | hm
    · obtain ⟨t, hx, hr', herr', hc', hm'⟩ :=
        engineTurn_of_configured (s := { d.machine with rdata := none }) hc ha hn hb
      exact ⟨_, (takeTurn_engine d).trans (congrArg (afterMove · _) hx), hr'.trans hr,
        herr'.trans herr, .waiting k hp hc' (.inr hm') ht⟩
    · exact ⟨_, takeTurn_engine_of_idle hm.1, hr, herr, .waiting k hp hc (.inr hm) ht⟩
  | reading k hp hc hm ht =>
    exact ⟨_, takeTurn_engine_of_idle hm.1, hr, herr, .reading k hp hc hm ht⟩
  | finished k code hp hc hm hcode ht =>
    exact ⟨_, takeTurn_engine_of_idle hm.1, hr, herr, .finished k code hp hc hm hcode ht⟩

theorem truncateRun_start {s : State} {g : List Byte} {n : BitVec 4} {alg : AlgName}
    (hb : s.busy = false) (hr : s.rst = false) (hwf : s.digest.wf)
    (hlen : dlen (algCode alg) = some g.length) (hn : validDigits n = true) :
    TruncateRun s.err g n (algCode alg) (Driver.start (truncateSequence g n alg) s) := by
  obtain ⟨t, hx, ht⟩ := execAll_setcfg_lddig (s := { s with rdata := none }) hb hwf hlen hn
  refine ⟨hr, rfl, .settingUp ⟨hb, setcfg n alg ++ lddig g, t, ?_, fun i hi => ?_, hx, ht⟩ rfl⟩
  · simp [Driver.start, truncateSequence]
  · rcases List.mem_append.mp hi with hi | hi
    · exact .inl ⟨_, _, List.mem_singleton.mp hi, hn, validAlg_algCode alg⟩
    · exact setsInputs_lddigFrom hi

/-- A run of `TRUNCATE` that has no line left has the trace and the results of its last phase. -/
theorem TruncateRun.finished {e : ErrFlags} {g : List Byte} {n : BitVec 4} {a : BitVec 2}
    {d : Driver} (h : TruncateRun e g n a d) (hp : d.program = []) :
    ∃ (k : Nat) (code : Word),
      d.trace = List.replicate k (.status, 0x1) ++ [(.status, 0x2), (.code, code)] ∧
      code.toNat = sourceTruncate g n.toNat ∧ HasCode g n d.machine ∧ Configured g n a d.machine := by
  cases h.phase with
  | settingUp hset =>
    obtain ⟨-, is, t, hprogram, -⟩ := hset
    simp [hprogram] at hp
  | waiting k hprogram => simp [hprogram] at hp
  | reading k hprogram => simp [hprogram] at hp
  | finished k code _ hc hm hcode ht => exact ⟨k, code, ht, hcode, hm, hc⟩

/-- Settles O58: the turns of the driver and of the engine keep `TruncateRun`, which holds at the start. -/
theorem truncateReadsTheSourceTruncate : Obligations.TruncateReadsTheSourceTruncate := by
  intro s g n alg turns hb hr hwf hlen hn hturns
  have hdigits := validDigits_iff.mpr hn
  obtain ⟨d, hd, hrun⟩ := drive_keeps (fun _ h => h.driverTurn)
    (fun _ h => h.engineTurn hlen hdigits) hturns (truncateRun_start hb hr hwf hlen hdigits)
  refine ⟨d, hd, hrun.err, fun hp => ?_⟩
  obtain ⟨k, code, ht, hcode, ⟨hidle, hdone, -⟩, halg, hn', -⟩ := hrun.finished hp
  exact ⟨k, code, ht, hcode, hcode ▸ Nat.mod_lt _ (by positivity), hidle, hdone, halg, hn'⟩

end Sys2Proof.Machine

namespace Sys2Proof.Machine

/-! ### Which moves change the digest, the configuration and the results (section 9 of 40_register_access.md) -/

/-- The digest, the configuration and the results are the same in two states. -/
def KeepsRegisters (s t : State) : Prop :=
  t.digest = s.digest ∧ t.digits = s.digits ∧ t.alg = s.alg ∧
    t.offset = s.offset ∧ t.value = s.value ∧ t.code = s.code

theorem keepsRegisters_raise (s : State) (e : Error) : KeepsRegisters s (s.raise e) :=
  ⟨rfl, rfl, rfl, rfl, rfl, rfl⟩

theorem keepsRegisters_refuseCfg (s : State) (a : BitVec 2) (d : BitVec 4) :
    KeepsRegisters s (s.refuseCfg a d) := by
  rw [refuseCfg_eq]
  exact ⟨rfl, rfl, rfl, rfl, rfl, rfl⟩

/-- The instructions that change these registers: an idle CLEAR, an accepted write to `CFG`, an idle write
to a digest word. -/
theorem exec_registers_cases {i : Instr} {s t : State} (h : exec i s = .next t) :
    KeepsRegisters s t ∨
    (s.busy = false ∧ i = .clear ∧ t = s.scrub) ∨
    (s.busy = false ∧ ∃ hi a lo d, i = .wrCfg hi a lo d ∧
      validDigits d = true ∧ validAlg a = true ∧ t = s.configure a d) ∨
    (s.busy = false ∧ ∃ k b0 b1 b2 b3, i = .wrDigestw k b0 b1 b2 b3 ∧
      t = s.storeDigestw k (digestwData b0 b1 b2 b3)) := by
  rcases exec_cases h with ⟨rfl, -⟩ | ⟨w, -, rfl⟩ | ⟨_, m, -, rfl⟩ | ⟨-, -, -, rfl⟩ | ⟨-, -, rfl⟩
    | hclear | ⟨-, -, rfl⟩ | hcfg | ⟨-, _, _, _, _, -, -, rfl⟩ | hdigest
  · exact .inl ⟨rfl, rfl, rfl, rfl, rfl, rfl⟩
  · exact .inl ⟨rfl, rfl, rfl, rfl, rfl, rfl⟩
  · exact .inl ⟨rfl, rfl, rfl, rfl, rfl, rfl⟩
  · exact .inl (keepsRegisters_raise s .busy)
  · exact .inl ⟨rfl, rfl, rfl, rfl, rfl, rfl⟩
  · exact .inr (.inl hclear)
  · exact .inl (keepsRegisters_raise s .cmd)
  · exact .inr (.inr (.inl hcfg))
  · exact .inl (keepsRegisters_refuseCfg s _ _)
  · exact .inr (.inr (.inr hdigest))

/-- The moves other than the reset that change these registers: the three instructions and the completion. -/
theorem step_registers_cases {s t : State} (h : step s = .next t) (hne : nextEvent s ≠ .rst true) :
    KeepsRegisters s t ∨
    (s.busy = false ∧ nextInstr s = some .clear ∧ t = s.dequeue.scrub) ∨
    (s.busy = false ∧ ∃ hi a lo d, nextInstr s = some (.wrCfg hi a lo d) ∧
      validDigits d = true ∧ validAlg a = true ∧ t = s.dequeue.configure a d) ∨
    (s.busy = false ∧ ∃ k b0 b1 b2 b3, nextInstr s = some (.wrDigestw k b0 b1 b2 b3) ∧
      t = s.dequeue.storeDigestw k (digestwData b0 b1 b2 b3)) ∨
    (s.busy = true ∧ nextEvent s = .engine ∧ ∃ o v c, t = s.dequeue.finish o v c) := by
  rcases step_cases h with ⟨i, hn, -, hi⟩ | ⟨he, heng⟩ | ⟨he, -⟩ | ⟨-, rfl⟩
  · rcases exec_registers_cases hi with hkeep | ⟨hb, rfl, ht⟩ | ⟨hb, _, _, _, _, rfl, hd, ha, ht⟩
      | ⟨hb, _, _, _, _, _, rfl, ht⟩
    · exact .inl hkeep
    · exact .inr (.inl ⟨hb, hn, ht⟩)
    · exact .inr (.inr (.inl ⟨hb, _, _, _, _, hn, hd, ha, ht⟩))
    · exact .inr (.inr (.inr (.inl ⟨hb, _, _, _, _, _, hn, ht⟩)))
  · rcases engineTurn_cases heng with ⟨-, rfl⟩ | ⟨hb, r, -, ht⟩
    · exact .inl ⟨rfl, rfl, rfl, rfl, rfl, rfl⟩
    · exact .inr (.inr (.inr (.inr ⟨hb, he, _, _, _, ht⟩)))
  · exact absurd he hne
  · exact .inl ⟨rfl, rfl, rfl, rfl, rfl, rfl⟩

/-- Settles O43, by the moves of `step_registers_cases`: each gives the cause of what it changes and keeps the
rest. -/
theorem onlyTheListedMovesChangeState : Obligations.OnlyTheListedMovesChangeState := by
  intro s t h hne
  rcases step_registers_cases h hne with ⟨hdig, hn, ha, ho, hv, hc⟩ | ⟨hb, hi, rfl⟩
    | ⟨hb, hi, a, lo, d, hinstr, hd, ha, rfl⟩ | ⟨hb, k, b0, b1, b2, b3, hi, rfl⟩
    | ⟨hb, he, o, v, c, rfl⟩
  · exact ⟨absurd hdig, fun hcfg => hcfg.elim (absurd hn) (absurd ha),
      fun hres => hres.elim (absurd ho) (·.elim (absurd hv) (absurd hc))⟩
  · exact ⟨fun _ => ⟨hb, _, hi, .inl rfl⟩, fun hcfg => by simp at hcfg, fun _ => .inr ⟨hb, hi⟩⟩
  · exact ⟨fun hdig => absurd rfl hdig, fun _ => ⟨hb, hi, lo, hinstr, hd, ha⟩,
      fun hres => by simp at hres⟩
  · exact ⟨fun _ => ⟨hb, _, hi, .inr ⟨k, b0, b1, b2, b3, rfl⟩⟩, fun hcfg => by simp at hcfg,
      fun hres => by simp at hres⟩
  · exact ⟨fun hdig => absurd rfl hdig, fun hcfg => by simp at hcfg, fun _ => .inl ⟨hb, he⟩⟩

/-! ### The words the registers are read as (R85, R87, R89, R91 to R93) -/

/-- A register of `n` bits read as a 32-bit word is zero from bit `n` up. -/
theorem getLsbD_zeroExtended {n : Nat} (x : BitVec n) {j : Nat} (hj : n ≤ j) :
    (x.setWidth 32).getLsbD j = false := by
  rw [BitVec.getLsbD_setWidth, BitVec.getLsbD_of_ge x j hj, Bool.and_false]

theorem statusWord_bit1 (done busy : Bool) : (statusWord done busy).getLsbD 1 = done := by
  cases done <;> cases busy <;> decide

/-- The invariant rules out the status word 3 (R31). -/
theorem statusWord_legal {done busy : Bool} (h : done = true → busy = false) :
    statusWord done busy = 0 ∨ statusWord done busy = 1 ∨ statusWord done busy = 2 := by
  cases done with
  | false => cases busy <;> decide
  | true =>
    rw [h rfl]
    decide

/-- Settles O7: the two bits, zero extension above, and `DONE` only while idle under the invariant. -/
theorem statusReadGivesBusyAndDone : Obligations.StatusReadGivesBusyAndDone :=
  fun s => ⟨_, exec_rdStatus s, statusWord_bit0 _ _, statusWord_bit1 _ _,
    fun _ hj => getLsbD_zeroExtended _ hj, fun h => statusWord_legal h.done_idle⟩

/-- Each flag of `ERR` is read in the bit of its code (R32, R87). -/
theorem errWord_getLsbD_code (f : ErrFlags) (e : Error) : (errWord f).getLsbD e.code = f.get e := by
  obtain ⟨c, a, m, b⟩ := f
  cases e <;> revert c a m b <;> decide

theorem errWord_getLsbD_high (f : ErrFlags) {j : Nat} (hj : 4 ≤ j) : (errWord f).getLsbD j = false :=
  getLsbD_zeroExtended _ hj

/-- Settles O8: the bit of each flag, and zero extension above. -/
theorem errReadGivesTheFlags : Obligations.ErrReadGivesTheFlags :=
  fun s => ⟨_, rfl, errWord_getLsbD_code s.err .cfg, errWord_getLsbD_code s.err .alg,
    errWord_getLsbD_code s.err .cmd, errWord_getLsbD_code s.err .busy,
    fun _ hj => errWord_getLsbD_high s.err hj⟩

/-- The fields of the word `CFG` is read as (R89). -/
theorem cfgWord_fields : ∀ (a : BitVec 2) (d : BitVec 4),
    (cfgWord a d).extractLsb' 0 4 = d ∧ (cfgWord a d).extractLsb' 8 2 = a ∧
      (cfgWord a d).extractLsb' 4 4 = 0 ∧ (cfgWord a d).extractLsb' 10 22 = 0 := by
  decide

/-- The legal configurations are read as nine words. -/
theorem cfgWord_legal {a : BitVec 2} {d : BitVec 4} (hd : validDigits d = true)
    (ha : validAlg a = true) :
    cfgWord a d ∈ [0x006#32, 0x007#32, 0x008#32, 0x106#32, 0x107#32, 0x108#32, 0x206#32,
      0x207#32, 0x208#32] := by
  obtain rfl | rfl | rfl := validDigits_iff.mp hd <;>
    obtain rfl | rfl | rfl := validAlg_iff.mp ha <;> decide

/-- Settles O9: the fields of the word, and its nine values for a legal configuration. -/
theorem cfgReadGivesDigitsAndAlg : Obligations.CfgReadGivesDigitsAndAlg := by
  intro s
  obtain ⟨hd, ha, hlo, hhi⟩ := cfgWord_fields s.alg s.digits
  exact ⟨_, rfl, hd, ha, hlo, hhi, fun h => cfgWord_legal h.digits_legal h.alg_legal⟩

/-- Settles O10: zero extension keeps the number, and `DoneMeansTheResultsMatch` bounds the code. -/
theorem resultReadsAreZeroExtended : Obligations.ResultReadsAreZeroExtended := by
  intro s
  have hcode : (s.code.setWidth 32).toNat = s.code.toNat := BitVec.toNat_setWidth_of_le (by decide)
  refine ⟨⟨_, rfl, BitVec.toNat_setWidth_of_le (by decide)⟩,
    ⟨_, rfl, BitVec.toNat_setWidth_of_le (by decide), getLsbD_zeroExtended _ le_rfl⟩,
    ⟨_, rfl, hcode, fun _ hj => getLsbD_zeroExtended _ hj, fun h hdone => ?_⟩⟩
  obtain ⟨-, hlt, -⟩ := doneMeansTheResultsMatch s h hdone
  exact hcode ▸ hlt

/-- Settles O11: the arms of these reads answer zero. -/
theorem cmdAndReservedReadZero : Obligations.CmdAndReservedReadZero :=
  fun _ _ => ⟨rfl, rfl, rfl⟩

/-- Byte `j` of a word of the buffer, the first the most significant (R99). -/
theorem extractLsb'_memReadWord (m : Memory) (addr : Nat) {j : Nat} (hj : j < 4) :
    (memReadWord m addr).extractLsb' (8 * (3 - j)) 8 = m.read (addr + j) := by
  have hbytes : 4 = j + (1 + (3 - j)) := by omega
  apply BitVec.eq_of_toNat_eq
  rw [BitVec.extractLsb'_toNat, memReadWord_toNat, Nat.shiftRight_eq_div_pow, pow_mul]
  calc memRead m addr 4 / 256 ^ (3 - j) % 256 ^ 1
      = memRead m addr (j + (1 + (3 - j))) / 256 ^ (3 - j) % 256 ^ 1 := by rw [← hbytes]
    _ = memRead m (addr + j) 1 := memRead_middle m addr j 1 (3 - j)
    _ = (m.read (addr + j)).toNat := by simp [memRead]

/-- Settles O12, by `extractLsb'_memReadWord` for each of the four bytes. -/
theorem digestWordReadIsBigEndian : Obligations.DigestWordReadIsBigEndian := by
  intro s k
  have hbyte {j : Nat} (hj : j < 4) := extractLsb'_memReadWord s.digest (digestwIndex k) hj
  exact ⟨_, exec_rdDigestw rfl, hbyte (j := 0) (by decide), hbyte (j := 1) (by decide),
    hbyte (j := 2) (by decide), hbyte (j := 3) (by decide)⟩

/-! ### Writes that are ignored, and writes to ERR (R86, R88, R95) -/

/-- Settles O14: the arms of these writes answer the state they are given. -/
theorem readOnlyAndReservedIgnoreWrites : Obligations.ReadOnlyAndReservedIgnoreWrites :=
  fun _ _ _ => ⟨rfl, rfl, rfl, rfl, rfl, rfl⟩

/-- The bits of `ERR` below 4 are those of the four errors (R32). -/
theorem code_or_four_le (j : Nat) : (∃ e : Error, j = e.code) ∨ 4 ≤ j := by
  match j with
  | 0 => exact .inl ⟨.cfg, rfl⟩
  | 1 => exact .inl ⟨.alg, rfl⟩
  | 2 => exact .inl ⟨.cmd, rfl⟩
  | 3 => exact .inl ⟨.busy, rfl⟩
  | j + 4 => exact .inr (by omega)

/-- Write one to clear, on the word `ERR` is read as (R88). -/
theorem errWord_clear (f : ErrFlags) (m : BitVec 4) :
    errWord (f.clear m) = errWord f &&& ~~~(m.setWidth 32) := by
  apply BitVec.eq_of_getLsbD_eq
  intro j hj
  rw [BitVec.getLsbD_and]
  rcases code_or_four_le j with ⟨e, rfl⟩ | hhigh
  · rw [errWord_getLsbD_code, errWord_getLsbD_code, clear_get]
    simp [hj]
  · rw [errWord_getLsbD_high _ hhigh, errWord_getLsbD_high _ hhigh, Bool.false_and]

/-- Settles O19: the arm clears the flags of the mask, on the register and (`errWord_clear`) on the word. -/
theorem errWriteClearsSelectedFlags : Obligations.ErrWriteClearsSelectedFlags :=
  fun s _ m => ⟨s.clearFlags m, rfl, rfl, rfl, rfl, rfl, rfl, errWord_clear s.err m⟩

/-! ### The busy lock (R80, R82) -/

/-- A write the busy period locks is rejected while busy, whatever its data. -/
theorem exec_locked_of_busy {i : Instr} {s : State} (hb : s.busy = true) (hw : i.isWrite = true)
    (hl : lockedSlot i.slot = true) : exec i s = .next (s.raise .busy) := by
  cases i with
  | nop | trunc | clear | cmdIllegal | wrCfg | wrDigestw =>
    exact congrArg Host.Outcome.next (unlessBusy_busy hb)
  | wrStatus | wrErr | wrOffset | wrValue | wrCode | wrRsvd7 | wrRsvd8to15 =>
    exact absurd hl Bool.false_ne_true
  | _ => exact absurd hw Bool.false_ne_true

/-- Settles O15: the three kinds of slot are the locked ones, and `exec_locked_of_busy` rejects the write. -/
theorem writeWhileBusyOnlySetsErrBusy : Obligations.WriteWhileBusyOnlySetsErrBusy := by
  intro i s hb hw hslot
  have hl : lockedSlot i.slot = true := by
    obtain h | h | ⟨k, h⟩ := hslot <;> rw [h] <;> rfl
  exact exec_locked_of_busy hb hw hl

/-! ### Writes at idle (R83, R90, R100) -/

theorem decode_cmdWrite (data : Word) : decode (tWord true 0 data) = .ok (decodeCommand data) := by
  have hslot : slotOfWidx 0 = .cmd := slotOfWidx_widxOfSlot .cmd
  rw [decode, tWe_tWord, tWidx_tWord, tData_tWord, if_pos rfl, hslot, decodeWrite]

/-- A word that is none of the three commands is an illegal one (R67). -/
theorem decodeCommand_illegal {data : Word} (h0 : data ≠ 0) (h1 : data ≠ 1) (h2 : data ≠ 2) :
    decodeCommand data = .cmdIllegal data := by
  rw [decodeCommand, if_neg h0, if_neg h1, if_neg h2]

/-- Settles O16: the word decodes to its command, which the busy lock lets pass at idle. -/
theorem commandWordAtIdle : Obligations.CommandWordAtIdle := by
  intro s data hr hb
  have hrun := hostTransaction_of_decode hr (decode_cmdWrite data)
  have hpass {t : State} : Host.Outcome.next (φ := Fault) (ρ := Refusal) (s.unlessBusy t) = .next t :=
    congrArg _ (unlessBusy_idle hb)
  refine ⟨?_, ?_, ?_, fun h0 h1 h2 => ?_⟩
  · rintro rfl
    exact hrun.trans hpass
  · rintro rfl
    exact hrun.trans hpass
  · rintro rfl
    exact hrun
  · rw [hrun, decodeCommand_illegal h0 h1 h2]
    exact hpass

theorem exec_wrCfg_of_invalid {s : State} (hb : s.busy = false) (hi : BitVec 22) (lo : BitVec 4)
    {a : BitVec 2} {d : BitVec 4} (hv : ¬(validDigits d = true ∧ validAlg a = true)) :
    exec (.wrCfg hi a lo d) s = .next (s.refuseCfg a d) := by
  have hcfg : s.writeCfg a d = s.refuseCfg a d := (writeCfg_eq s a d).trans (if_neg hv)
  exact congrArg Host.Outcome.next ((unlessBusy_idle hb).trans hcfg)

theorem not_validDigits_iff {d : BitVec 4} : ¬ validDigits d = true ↔ d ≠ 6 ∧ d ≠ 7 ∧ d ≠ 8 := by
  simp [validDigits_iff]

/-- Settles O20: a valid write is `configure`, any other is `refuseCfg`, whose flags `refuseCfg_eq` names. -/
theorem cfgWriteIsValidated : Obligations.CfgWriteIsValidated := by
  intro s hi a lo d hb
  refine ⟨fun hd ha => exec_wrCfg_of_idle hb hi lo (validDigits_iff.mpr hd) (validAlg_iff.mpr ha),
    fun hbad => ?_⟩
  have hv : ¬(validDigits d = true ∧ validAlg a = true) := by
    rw [← not_validDigits_iff] at hbad
    rintro ⟨hd, ha⟩
    exact hbad.elim (absurd hd) (absurd · (validAlg_iff_ne.mp ha))
  refine ⟨_, exec_wrCfg_of_invalid hb hi lo hv, ?_⟩
  rw [refuseCfg_eq]
  refine ⟨rfl, ?_, ?_, rfl, rfl⟩
  · simp [← Bool.not_eq_true, validDigits_iff]
  · simp [← Bool.not_eq_true, validAlg_iff_ne]

/-- Settles O21, by `read_storeDigestw` for the four bytes and the laws of `memWrite` for the others. -/
theorem digestWordWriteStoresFourBytes : Obligations.DigestWordWriteStoresFourBytes := by
  intro s k b0 b1 b2 b3 hb hwf
  have hbyte {j : Nat} (hj : j < 4) := read_storeDigestw hwf k b0 b1 b2 b3 hj
  exact ⟨_, exec_wrDigestw_of_idle hb k b0 b1 b2 b3, rfl, memWrite_wf hwf (digestwIndex_le k) _,
    hbyte (j := 0) (by decide), hbyte (j := 1) (by decide), hbyte (j := 2) (by decide),
    hbyte (j := 3) (by decide), rfl, fun _ hi => read_memWrite_outside _ _ hi⟩

end Sys2Proof.Machine

namespace Sys2Proof.Machine

/-! ### The steps of the datapath in numbers (R112 to R115, R121) -/

/-- The four bytes of the window, the first the most significant (R113). -/
theorem windowOf_toNat_bytes (d : Memory) (o : BitVec 4) :
    (windowOf d o).toNat =
      (d.read o.toNat).toNat * 2 ^ 24 + (d.read (o.toNat + 1)).toNat * 2 ^ 16
        + (d.read (o.toNat + 2)).toNat * 2 ^ 8 + (d.read (o.toNat + 3)).toNat := by
  rw [windowOf_toNat]
  simp only [memRead, Nat.add_assoc, Nat.reduceAdd]
  omega

/-- Settles O29: one lemma for each step of the datapath. -/
theorem datapathComputesTheSourceSteps : Obligations.DatapathComputesTheSourceSteps := by
  refine ⟨offsetOf_toNat, fun d o => ⟨?_, windowOf_toNat_bytes d o⟩, fun w => ?_, fun v n hn => ?_⟩
  · have := windowIndex_le o
    omega
  · rw [mask31_toNat, BitVec.toNat_and]
    exact (Nat.and_two_pow_sub_one_eq_mod _ 31).symm
  · exact ⟨reduce_toNat v (validDigits_iff.mpr hn), reduce_lt v (validDigits_iff.mpr hn)⟩

/-- A reduction to more digits first does not change the reduction to fewer. -/
theorem reduce_reduce (v : BitVec 31) {m n : BitVec 4} (hm : validDigits m = true)
    (hn : validDigits n = true) (hle : n.toNat ≤ m.toNat) :
    reduce ((reduce v m).setWidth 31) n = reduce v n := by
  apply BitVec.eq_of_toNat_eq
  rw [reduce_toNat _ hn, reduce_toNat _ hn, BitVec.toNat_setWidth_of_le (by decide), reduce_toNat _ hm]
  exact Nat.mod_mod_of_dvd _ (Nat.pow_dvd_pow 10 hle)

/-- A word whose bit 31 is clear is its own masked value. -/
theorem mask31_setWidth (v : BitVec 31) : mask31 (v.setWidth 32) = v := by
  apply BitVec.eq_of_toNat_eq
  rw [mask31_toNat, BitVec.toNat_setWidth_of_le (by decide), Nat.mod_eq_of_lt v.isLt]

/-- The mask takes the weight of bit 31 off the word. -/
theorem mask31_toNat_eq_sub (w : Word) :
    (mask31 w).toNat = w.toNat - 2 ^ 31 * (w.getLsbD 31).toNat := by
  have hbit : (w.getLsbD 31).toNat = w.toNat / 2 ^ 31 := by
    rw [BitVec.getLsbD, Nat.toNat_testBit]
    omega
  rw [mask31_toNat, hbit]
  omega

/-- Settles O30, by `reduce_reduce`, `reduce_le` and the two laws of the mask. -/
theorem reductionAndMaskLaws : Obligations.ReductionAndMaskLaws := by
  intro v w
  exact ⟨(reduce_reduce v rfl rfl (by decide)).symm, (reduce_reduce v rfl rfl (by decide)).symm,
    (reduce_reduce v rfl rfl (by decide)).symm, fun n hn => reduce_le v (validDigits_iff.mpr hn),
    mask31_setWidth _, mask31_toNat_eq_sub w⟩

/-! ### TRUNC and its completion (R110, R117, R118) -/

theorem exec_trunc_of_idle {s : State} (hb : s.busy = false) : exec .trunc s = .next s.acceptTrunc :=
  congrArg Host.Outcome.next (unlessBusy_idle hb)

/-- Settles O28: at idle the lock lets the acceptance step pass, and while busy it rejects the write. -/
theorem truncIsAcceptedAtIdle : Obligations.TruncIsAcceptedAtIdle := by
  intro s
  have hword : statusWord false true = 0x00000001 := by decide
  exact ⟨fun hb => ⟨s.acceptTrunc, exec_trunc_of_idle hb, rfl,
      congrArg (fun w => Host.Outcome.next (s.acceptTrunc.respond w)) hword⟩,
    fun hb => exec_locked_of_busy hb rfl rfl⟩

/-- The engine's turn, where an operation is in flight and its truncation is defined. -/
theorem engineTurn_of_busy {s : State} {r : Truncation} (hb : s.busy = true)
    (hr : truncate s.digest s.alg s.digits = .ok r) :
    engineTurn s = .next (s.finish r.offset r.value r.code) := by
  simp only [engineTurn, hb, if_true, complete, hr]

/-- Settles O31: a legal configuration has a truncation, and the engine's turn writes it. -/
theorem completionWritesTheResults : Obligations.CompletionWritesTheResults := by
  intro s hb hn ha
  obtain ⟨len, hlen⟩ := dlen_of_validAlg ha
  have hr := truncate_ok (d := s.digest) hlen hn
  exact ⟨_, hr, engineTurn_of_busy hb hr⟩

/-- Settles O33: the results the completion writes are the source's, by `truncateLen_eq_source`. -/
theorem truncComputesTheSourceTruncate : Obligations.TruncComputesTheSourceTruncate := by
  rintro s g n hb hlen hn hdigest ha rfl
  have hvalid : validDigits s.digits = true :=
    validDigits_iff.mpr
      (hn.imp BitVec.eq_of_toNat_eq (Or.imp BitVec.eq_of_toNat_eq BitVec.eq_of_toNat_eq))
  obtain ⟨hoffset, hvalue, hcode⟩ := truncateLen_eq_source hdigest (by omega) hvalid
  have hbound : (truncateLen s.digest g.length s.digits).code.toNat < 10 ^ s.digits.toNat :=
    reduce_lt _ hvalid
  exact ⟨s.acceptTrunc, _, exec_trunc_of_idle hb, rfl,
    engineTurn_of_busy (s := s.acceptTrunc) rfl (truncate_ok ha hvalid),
    rfl, rfl, hcode, hbound, hoffset, hvalue, rfl⟩

/-! ### The bits of the buffer a truncation depends on (R119, R122) -/

/-- The offset is the low nibble of the last digest byte. -/
theorem offsetOf_congr {d d' : Memory} {len : Nat}
    (h : (d.read (len - 1)).extractLsb' 0 4 = (d'.read (len - 1)).extractLsb' 0 4) :
    offsetOf d len = offsetOf d' len := by
  apply BitVec.eq_of_toNat_eq
  rw [offsetOf_toNat, offsetOf_toNat]
  simpa using congrArg BitVec.toNat h

/-- The masked window is the low seven bits of its first byte and its other three bytes. -/
theorem mask31_windowOf_congr {d d' : Memory} {o : BitVec 4}
    (hfirst : (d.read o.toNat).extractLsb' 0 7 = (d'.read o.toNat).extractLsb' 0 7)
    (hrest : ∀ j, 1 ≤ j → j ≤ 3 → d.read (o.toNat + j) = d'.read (o.toNat + j)) :
    mask31 (windowOf d o) = mask31 (windowOf d' o) := by
  have hbits : (d.read o.toNat).toNat % 128 = (d'.read o.toNat).toNat % 128 := by
    simpa using congrArg BitVec.toNat hfirst
  apply BitVec.eq_of_toNat_eq
  rw [mask31_toNat, mask31_toNat, windowOf_toNat_bytes, windowOf_toNat_bytes,
    hrest 1 (by decide) (by decide), hrest 2 (by decide) (by decide), hrest 3 (by decide) le_rfl]
  omega

/-- Two buffers have the same truncation where, for the digest length, they have the same offset and the same
masked window. -/
theorem truncate_congr {d d' : Memory} {a : BitVec 2} (n : BitVec 4)
    (h : ∀ len, dlen a = some len → offsetOf d len = offsetOf d' len ∧
      mask31 (windowOf d (offsetOf d len)) = mask31 (windowOf d' (offsetOf d len))) :
    truncate d a n = truncate d' a n := by
  unfold truncate
  cases hlen : dlen a with
  | none => rfl
  | some len =>
    obtain ⟨hoffset, hvalue⟩ := h len hlen
    simp only [truncateLen, hvalue, ← hoffset]

/-- Bytes 0 to 18 hold every window, so with the last digest byte they determine the truncation. -/
theorem truncate_congr_of_read {d d' : Memory} {a : BitVec 2} (n : BitVec 4)
    (hwindow : ∀ i, i ≤ 18 → d.read i = d'.read i)
    (hlast : ∀ len, dlen a = some len → d.read (len - 1) = d'.read (len - 1)) :
    truncate d a n = truncate d' a n := by
  refine truncate_congr n fun len hlen => ⟨offsetOf_congr (by rw [hlast len hlen]), ?_⟩
  have hindex := windowIndex_le (offsetOf d len)
  exact congrArg mask31 (memReadWord_congr fun i _ _ => hwindow i (by omega))

/-- Settles O34: the selected bits give the offset and the masked window, and the last byte of a digest is
byte 19, 31 or 63. -/
theorem onlyTheSelectedBytesMatter : Obligations.OnlyTheSelectedBytesMatter := by
  refine fun d d' a n => ⟨fun len hlen hnibble hfirst hrest => ?_, fun h => ?_⟩
  · refine truncate_congr n fun len' hlen' => ?_
    obtain rfl : len = len' := Option.some.inj (hlen.symm.trans hlen')
    exact ⟨offsetOf_congr hnibble, mask31_windowOf_congr hfirst hrest⟩
  · refine truncate_congr_of_read n (fun i hi => h i (by omega)) fun len hlen => h _ ?_
    have := dlen_cases hlen
    omega

/-- Settles O35: the two operations have the same truncation, and its results are what they leave. -/
theorem truncationIsRepeatable : Obligations.TruncationIsRepeatable := by
  intro s s' t t' hb hb' halg hdigits hread ht ht'
  obtain ⟨-, -, hr⟩ := engineTurn_while_busy hb ht
  obtain ⟨-, -, hr'⟩ := engineTurn_while_busy hb' ht'
  obtain ⟨len, hlen, -, -⟩ := truncate_cases hr
  have hlong : 20 ≤ len := by
    have := dlen_cases hlen
    omega
  have heq : truncate s.digest s.alg s.digits = truncate s'.digest s.alg s.digits := by
    refine truncate_congr_of_read _ (fun i hi => hread len hlen i (by omega)) fun len' hlen' => ?_
    obtain rfl : len = len' := Option.some.inj (hlen.symm.trans hlen')
    exact hread len hlen _ (by omega)
  rw [← halg, ← hdigits, ← heq, hr] at hr'
  exact Truncation.mk.inj (Except.ok.inj hr')

end Sys2Proof.Machine

namespace Sys2Proof.Machine

/-! ### NOP and the illegal commands (R130, R134) -/

/-- Settles O17: at idle the lock lets the unchanged state pass, and while busy it rejects the write. -/
theorem nopKeepsEverything : Obligations.NopKeepsEverything :=
  fun _ => ⟨fun hb => congrArg Host.Outcome.next (unlessBusy_idle hb),
    fun hb => exec_locked_of_busy hb rfl rfl⟩

/-- Settles O18: at idle the lock lets the raise of IllegalCommand pass, and while busy it rejects the write
before its word is examined. -/
theorem illegalCommandOnlySetsErrCmd : Obligations.IllegalCommandOnlySetsErrCmd :=
  fun _ _ _ => ⟨fun hb => congrArg Host.Outcome.next (unlessBusy_idle hb),
    fun hb => exec_locked_of_busy hb rfl rfl⟩

/-! ### CLEAR (R132) -/

theorem exec_clear_of_idle {s : State} (hb : s.busy = false) : exec .clear s = .next s.scrub :=
  congrArg Host.Outcome.next (unlessBusy_idle hb)

/-- A scrub at idle gives the reset state but for `CFG`, `ERR` and what is the environment's. -/
theorem scrub_eq_reset_of_idle {s : State} (hb : s.busy = false) :
    s.scrub = { State.reset with
      digits := s.digits, alg := s.alg, err := s.err,
      rdata := s.rdata, rst := s.rst, schedule := s.schedule } := by
  simp [State.scrub, State.reset, hb]

@[simp] theorem wf_nil : Memory.wf [] := by simp [Memory.wf]

/-- A zero buffer has offset, value and code zero, whatever the digest length and the digit count. -/
theorem truncateLen_nil (len : Nat) (n : BitVec 4) : truncateLen [] len n = ⟨0, 0, 0⟩ := by
  have hoffset : offsetOf [] len = 0 := congrArg (BitVec.ofNat 4) (memRead_nil _ 1)
  have hvalue : mask31 (windowOf [] 0) = 0 :=
    congrArg (fun x => mask31 (BitVec.ofNat 32 x)) (memRead_nil _ 4)
  have hcode : reduce 0 n = 0 := congrArg (BitVec.ofNat 27) (Nat.zero_mod _)
  simp only [truncateLen, hoffset, hvalue, hcode]

/-- Settles O36: the scrub is the reset state but for `CFG` and `ERR`, its buffer has no byte listed, and
while busy the lock rejects the write. -/
theorem clearScrubsDigestAndResults : Obligations.ClearScrubsDigestAndResults := by
  intro s
  refine ⟨fun hb => ⟨s.scrub, exec_clear_of_idle hb, fun i _ => read_nil i, wf_nil,
    scrub_eq_reset_of_idle hb, rfl, rfl, rfl, rfl, hb, fun hn ha => ?_⟩,
    fun hb => exec_locked_of_busy hb rfl rfl⟩
  obtain ⟨len, hlen⟩ := dlen_of_validAlg ha
  exact (truncate_ok hlen hn).trans (congrArg Except.ok (truncateLen_nil len _))

end Sys2Proof.Machine

namespace Sys2Proof.Machine

/-! ### Each error is set by its cause, with no other effect (R140 to R144) -/

theorem refuseCfg_eq_with_err (s : State) (a : BitVec 2) (d : BitVec 4) :
    s.refuseCfg a d = { s with err := (s.refuseCfg a d).err } := by
  rw [refuseCfg_eq]

/-- Where the cause of an error holds, the instruction sets that error's flag and changes nothing but `ERR`. -/
theorem Causes.exec_effect {e : Error} {i : Instr} {s : State} (h : Causes e i s) :
    ∃ t, exec i s = .next t ∧ t = { s with err := t.err } ∧ t.err.get e = true := by
  cases e with
  | cfg =>
    obtain ⟨hb, hi, a, lo, d, rfl, hd⟩ := h
    have hv : ¬ validDigits d = true := not_validDigits_iff.mpr hd
    exact ⟨_, exec_wrCfg_of_invalid hb hi lo fun hvalid => hv hvalid.1, refuseCfg_eq_with_err s a d,
      (refuseCfg_get_iff s _ a d).mpr (.inr (.inl ⟨rfl, hv⟩))⟩
  | alg =>
    obtain ⟨hb, hi, a, lo, d, rfl, ha⟩ := h
    have hv : ¬ validAlg a = true := fun hvalid => validAlg_iff_ne.mp hvalid ha
    exact ⟨_, exec_wrCfg_of_invalid hb hi lo fun hvalid => hv hvalid.2, refuseCfg_eq_with_err s a d,
      (refuseCfg_get_iff s _ a d).mpr (.inr (.inr ⟨rfl, hv⟩))⟩
  | cmd =>
    obtain ⟨hb, data, rfl⟩ := h
    exact ⟨s.raise .cmd, congrArg Host.Outcome.next (unlessBusy_idle hb), rfl, set_get_self s.err .cmd⟩
  | busy =>
    obtain ⟨hb, hw, hl⟩ := h
    exact ⟨s.raise .busy, exec_locked_of_busy hb hw hl, rfl, set_get_self s.err .busy⟩

/-- Settles O37: a set flag was set or has its cause by `exec_set_flag`, and conversely by `exec_keeps_flag`
and `Causes.exec_effect`, which gives the frame too. -/
theorem errorsFollowTheirCauses : Obligations.ErrorsFollowTheirCauses := by
  intro i s _ hne
  obtain ⟨t, hx⟩ := exec_completes i s
  have hcause {e : Error} (hc : Causes e i s) :
      t = { s with err := t.err } ∧ t.err.get e = true := by
    obtain ⟨u, hu, heffect⟩ := hc.exec_effect
    obtain rfl := Host.Outcome.next.inj (hx.symm.trans hu)
    exact heffect
  refine ⟨t, hx, fun e => ⟨exec_set_flag hx, ?_⟩, fun e hc => (hcause hc).1,
    errWord_getLsbD_code t.err⟩
  rintro (hs | hc)
  · exact (exec_keeps_flag hx hs).resolve_right fun ⟨ignored, m, hi, _⟩ => hne ignored m hi
  · exact (hcause hc).2

/-! ### No flag gates an operation (R148) -/

/-- Two states that differ in `ERR` at most. -/
def AgreeButErr (s s' : State) : Prop := ∃ f : ErrFlags, s' = { s with err := f }

/-- The busy lock looks at no flag: it lets the two accepted states pass, or rejects in both. -/
theorem agreeButErr_unlessBusy (s : State) (f : ErrFlags) {t t' : State} (h : AgreeButErr t t') :
    AgreeButErr (s.unlessBusy t) ({ s with err := f }.unlessBusy t') := by
  rcases Bool.eq_false_or_eq_true s.busy with hb | hb
  · rw [unlessBusy_busy hb, unlessBusy_busy (s := { s with err := f }) hb]
    exact ⟨f.set .busy, rfl⟩
  · rwa [unlessBusy_idle hb, unlessBusy_idle (s := { s with err := f }) hb]

/-- The checks of a `CFG` write look at no flag. -/
theorem agreeButErr_writeCfg (s : State) (f : ErrFlags) (a : BitVec 2) (d : BitVec 4) :
    AgreeButErr (s.writeCfg a d) ({ s with err := f }.writeCfg a d) := by
  rw [writeCfg_eq, writeCfg_eq]
  split_ifs
  · exact ⟨f, rfl⟩
  · rw [refuseCfg_eq, refuseCfg_eq]
    exact ⟨_, rfl⟩

/-- A write does the same whatever flags are set. -/
theorem exec_write_agreeButErr {i : Instr} (hw : i.isWrite = true) (s : State) (f : ErrFlags) :
    ∃ t t', exec i s = .next t ∧ exec i { s with err := f } = .next t' ∧ AgreeButErr t t' := by
  cases i with
  | wrCfg _ a _ d =>
    exact ⟨_, _, rfl, rfl, agreeButErr_unlessBusy s f (agreeButErr_writeCfg s f a d)⟩
  | nop | trunc | clear | cmdIllegal | wrDigestw =>
    exact ⟨_, _, rfl, rfl, agreeButErr_unlessBusy s f ⟨_, rfl⟩⟩
  | wrStatus | wrErr | wrOffset | wrValue | wrCode | wrRsvd7 | wrRsvd8to15 =>
    exact ⟨_, _, rfl, rfl, _, rfl⟩
  | _ => exact absurd hw Bool.false_ne_true

/-- A read answers in every state, and `RD ERR` alone answers with the flags. -/
theorem exec_read_with_err {i : Instr} (hr : i.isWrite = false) (s : State) (f : ErrFlags) :
    ∃ w w', exec i s = .next (s.respond w) ∧
      exec i { s with err := f } = .next ({ s with err := f }.respond w') ∧
      (i ≠ .rdErr → w' = w) := by
  cases i with
  | rdErr => exact ⟨_, _, rfl, rfl, fun hne => absurd rfl hne⟩
  | rdCmd | rdStatus | rdCfg | rdOffset | rdValue | rdCode | rdRsvd7 | rdRsvd8to15 | rdDigestw =>
    exact ⟨_, _, rfl, rfl, fun _ => rfl⟩
  | _ => exact absurd hr.symm Bool.false_ne_true

/-- The engine's turn does the same whatever flags are set. -/
theorem engineTurn_with_err {s t : State} (f : ErrFlags) (h : engineTurn s = .next t) :
    engineTurn { s with err := f } = .next { t with err := f } := by
  rcases engineTurn_cases h with ⟨hb, rfl⟩ | ⟨hb, r, hr, rfl⟩
  · exact engineTurn_of_idle hb
  · exact engineTurn_of_busy (s := { s with err := f }) hb hr

/-- Settles O39, by `exec_write_agreeButErr`, `exec_read_with_err` and `engineTurn_with_err`. -/
theorem flagsNeverGateOperation : Obligations.FlagsNeverGateOperation := by
  refine fun s f => ⟨fun i => ?_, fun t => engineTurn_with_err f⟩
  cases hw : i.isWrite with
  | true =>
    obtain ⟨t, _, hx, hx', g, rfl⟩ := exec_write_agreeButErr hw s f
    exact ⟨t, _, hx, hx', rfl, fun _ => rfl⟩
  | false =>
    obtain ⟨w, w', hx, hx', hanswer⟩ := exec_read_with_err hw s f
    exact ⟨_, _, hx, hx', rfl, fun hne => congrArg some (hanswer hne)⟩

end Sys2Proof.Machine

namespace Sys2Proof.Machine

/-! ### Reset (R160 to R162) -/

/-- Settles O45: the step is `State.assertReset`, and no byte is listed there. -/
theorem resetStepRestoresEverything : Obligations.ResetStepRestoresEverything := by
  intro s he
  have hstep : step s = .next s.dequeue.assertReset := by
    rw [step, he]
    rfl
  exact ⟨_, hstep, fun i _ => read_nil i, rfl, rfl, rfl, rfl, rfl, rfl, rfl, none_get⟩

theorem hostTransaction_of_reset {s : State} (hr : s.rst = true) (w : TWord) :
    hostTransaction w s = .refused .transactionDuringReset := by
  simp [hostTransaction, hr]

theorem hostAccess_of_word {a : Access} {w : TWord} (h : accessWord a = some w) (s : State) :
    hostAccess a s = hostTransaction w s := by
  simp [hostAccess, h]

/-- What the release of `rst` leaves where the invariant holds: the reset state (R162). -/
theorem Inv.releaseReset_eq_reset {s : State} (h : Inv s) (hr : s.rst = true) :
    s.releaseReset = { State.reset with rdata := s.rdata, schedule := s.schedule } := by
  rw [h.under_reset hr]
  rfl

/-- Settles O46: under `rst` a transaction is refused, and by the invariant nothing but `rst` differs from the
reset state. -/
theorem noTransactionUnderReset : Obligations.NoTransactionUnderReset := by
  intro s rest hr
  have hrefused (w : TWord) :=
    hostTransaction_of_reset (s := { s with schedule := rest, rdata := none }) hr w
  refine ⟨fun w hs => ?_, fun a w ha hs => ?_, fun hinv hs => ?_⟩
  · exact (step_of_schedule hs).trans (hrefused w)
  · exact (step_of_schedule hs).trans ((hostAccess_of_word ha _).trans (hrefused w))
  · exact (step_of_schedule hs).trans
      (congrArg Host.Outcome.next ((hinv.with_environment none rest).releaseReset_eq_reset hr))

/-! ### A digest write and the completion, in either order (R176) -/

/-- Settles O54: write first, the lock rejects it and the inputs are the old ones; completion first, the
machine is idle and accepts the write. -/
theorem writeAndCompletionInEitherOrder : Obligations.WriteAndCompletionInEitherOrder := by
  intro s r k b0 b1 b2 b3 hb hr
  exact ⟨⟨_, _, exec_locked_of_busy hb rfl rfl, engineTurn_of_busy (s := s.raise .busy) hb hr, rfl⟩,
    ⟨_, _, engineTurn_of_busy hb hr, exec_wrDigestw_of_idle rfl k b0 b1 b2 b3, rfl⟩⟩

end Sys2Proof.Machine

namespace Sys2Proof.Machine

/-! ### Lines that an idle machine runs one after another -/

/-- The machine is idle and outside reset, with the flags `e` in `ERR`. -/
def IdleWith (e : ErrFlags) (s : State) : Prop := s.busy = false ∧ s.rst = false ∧ s.err = e

/-- From a machine and a trace, the transactions of a list run one after another on a machine that stays idle
with the flags `e`, and the last leaves a machine and a trace of which `Q` holds. What stands on `rdata`
before a transaction does not matter: the engine's turns between take it off. -/
def RunsIdle (e : ErrFlags) (Q : State → List (Slot × Word) → Prop) :
    List Instr → State → List (Slot × Word) → Prop
  | [], s, trace => Q { s with rdata := none } trace
  | i :: is, s, trace => i.wellFormed = true ∧
    ∃ t, exec i { s with rdata := none } = .next t ∧ IdleWith e t ∧
      RunsIdle e Q is t (trace ++ (t.rdata.map fun w => (i.slot, w)).toList)

/-- The driver is in a row of transactions that run on an idle machine up to `Q`, with the lines `rest` to
follow. -/
def InRow (e : ErrFlags) (Q : State → List (Slot × Word) → Prop) (rest : List DriverOp)
    (d : Driver) : Prop :=
  IdleWith e d.machine ∧ ∃ is, d.program = is.map .instr ++ rest ∧
    RunsIdle e Q is d.machine d.trace

section
variable {e : ErrFlags} {Q : State → List (Slot × Word) → Prop} {rest : List DriverOp} {d : Driver}

theorem RunsIdle.without_answer {is : List Instr} {s : State} {trace : List (Slot × Word)}
    (h : RunsIdle e Q is s trace) : RunsIdle e Q is { s with rdata := none } trace := by
  cases is <;> exact h

/-- A turn of the driver in a row issues one of its transactions, unless none is left. -/
theorem InRow.driverTurn (h : InRow e Q rest d) :
    (d.program = rest ∧ Q { d.machine with rdata := none } d.trace) ∨
      ∃ d', takeTurn .driver d = .next d' ∧ InRow e Q rest d' := by
  obtain ⟨⟨_, hr, _⟩, is, hp, hrun⟩ := h
  cases is with
  | nil => exact .inl ⟨hp, hrun⟩
  | cons i is =>
    obtain ⟨hwf, t, hx, hidle, hrest⟩ := hrun
    exact .inr ⟨_, takeTurn_instr hp hr hwf hx, hidle, is, rfl, hrest⟩

/-- A turn of the engine changes nothing of a row. -/
theorem InRow.engineTurn (h : InRow e Q rest d) :
    ∃ d', takeTurn (.other .engine) d = .next d' ∧ InRow e Q rest d' := by
  obtain ⟨hidle, is, hp, hrun⟩ := h
  exact ⟨_, takeTurn_engine_of_idle hidle.1, hidle, is, hp, hrun.without_answer⟩

/-- A row with no line of the program left has run to its end. -/
theorem InRow.finished (h : InRow e Q rest d) (hp : d.program = []) :
    rest = [] ∧ Q { d.machine with rdata := none } d.trace := by
  obtain ⟨_, is, hprogram, hrun⟩ := h
  obtain ⟨his, hrest⟩ := List.append_eq_nil_iff.mp (hprogram.symm.trans hp)
  obtain rfl := List.map_eq_nil_iff.mp his
  exact ⟨hrest, hrun⟩

/-- Writes of inputs run on an idle machine, and leave what they leave with no other agent between. -/
theorem runsIdle_of_execAll {is : List Instr} {s t : State} {trace : List (Slot × Word)}
    (his : ∀ i ∈ is, SetsInputs i) (hs : IdleWith e s)
    (hx : execAll is { s with rdata := none } = .next t) (hQ : Q t trace) :
    RunsIdle e Q is s trace := by
  induction is generalizing s with
  | nil =>
    obtain rfl := Host.Outcome.next.inj hx
    exact hQ
  | cons i is ih =>
    have hi : SetsInputs i := his i List.mem_cons_self
    obtain ⟨u, hu, hframe⟩ := hi.exec_idle (s := { s with rdata := none }) hs.1
    have hanswer : u.rdata = none := by rw [hframe]
    have hidle : IdleWith e u := by
      rw [hframe]
      exact hs
    have hrest : execAll is { u with rdata := none } = .next t := by
      rw [← hanswer]
      exact (execAll_cons is hu).symm.trans hx
    refine ⟨hi.wellFormed, u, hu, hidle, ?_⟩
    rw [hanswer]
    simpa using ih (fun j hj => his j (List.mem_cons_of_mem _ hj)) hidle hrest

end

/-! ### The run of the sequence of R166 -/

/-- The engine is idle after a completion that left the source's code, offset and value. -/
def HasResults (g : List Byte) (n : BitVec 4) (s : State) : Prop :=
  HasCode g n s ∧ s.offset.toNat = sourceOffset g ∧ s.value.toNat = sourceValue g

/-- The completion on these inputs leaves the source's code, offset and value (R118). -/
theorem engineTurn_results_of_configured {g : List Byte} {n : BitVec 4} {a : BitVec 2} {s : State}
    (h : Configured g n a s) (ha : dlen a = some g.length) (hn : validDigits n = true)
    (hb : s.busy = true) :
    ∃ r : Truncation, engineTurn s = .next (s.finish r.offset r.value r.code) ∧
      HasResults g n (s.finish r.offset r.value r.code) := by
  obtain ⟨rfl, rfl, hdigest⟩ := h
  have hlen : 20 ≤ g.length := by
    have := dlen_cases ha
    omega
  obtain ⟨hoffset, hvalue, hcode⟩ := truncateLen_eq_source hdigest hlen hn
  exact ⟨_, engineTurn_of_busy hb (truncate_ok ha hn), ⟨rfl, rfl, hcode⟩, hoffset, hvalue⟩

/-- What the sequence has read before the last read of its `WAIT`. -/
def polledTrace (e : ErrFlags) (k : Nat) : List (Slot × Word) :=
  (.err, errWord e) :: List.replicate k (.status, 0x1)

/-- What the reads of the results answer in a state, in the order of the sequence. -/
def resultWords (s : State) : List (Slot × Word) :=
  [(.code, s.code.setWidth 32), (.offset, s.offset.setWidth 32), (.value, s.value.setWidth 32)]

/-- The transactions of the sequence after its `WAIT`. -/
def retrieval : List Instr := [.rdCode, .rdOffset, .rdValue, .clear]

/-- The lines up to TRUNC have left the inputs of the operation, and have read `ERR`. -/
def InputsSet (e : ErrFlags) (g : List Byte) (n : BitVec 4) (a : BitVec 2) (s : State)
    (trace : List (Slot × Word)) : Prop :=
  Configured g n a s ∧ trace = polledTrace e 0

/-- The sequence has polled, has read the results of a completion, and has scrubbed them. -/
def Retrieved (e : ErrFlags) (g : List Byte) (n : BitVec 4) (a : BitVec 2) (s : State)
    (trace : List (Slot × Word)) : Prop :=
  ∃ k u, Configured g n a u ∧ HasResults g n u ∧ s = u.scrub ∧
    trace = polledTrace e k ++ (.status, 0x2) :: resultWords u

/-- Where a run of the sequence stands, with what it has read. -/
inductive SequencePhase (e : ErrFlags) (g : List Byte) (n : BitVec 4) (a : BitVec 2) (d : Driver) :
    Prop
  | settingUp (h : InRow e (InputsSet e g n a) (.instr .trunc :: .wait :: retrieval.map .instr) d)
  | waiting (k : Nat) (hp : d.program = .wait :: retrieval.map .instr)
      (hr : d.machine.rst = false) (herr : d.machine.err = e) (h : Configured g n a d.machine)
      (hm : (d.machine.busy = true ∧ d.machine.done = false) ∨ HasResults g n d.machine)
      (ht : d.trace = polledTrace e k)
  | retrieving (h : InRow e (Retrieved e g n a) [] d)

section
variable {e : ErrFlags} {g : List Byte} {n : BitVec 4} {a : BitVec 2} {d : Driver}

theorem SequencePhase.err (h : SequencePhase e g n a d) : d.machine.err = e := by
  cases h with
  | waiting k hp hr herr => exact herr
  | settingUp h | retrieving h =>
    obtain ⟨⟨_, _, herr⟩, _⟩ := h
    exact herr

theorem runsIdle_retrieval {k : Nat} {s : State} {trace : List (Slot × Word)}
    (hs : IdleWith e s) (hc : Configured g n a s) (hm : HasResults g n s)
    (ht : trace = polledTrace e k ++ [(.status, 0x2)]) :
    RunsIdle e (Retrieved e g n a) retrieval s trace := by
  refine ⟨rfl, _, rfl, hs, rfl, _, rfl, hs, rfl, _, rfl, hs,
    rfl, _, exec_clear_of_idle hs.1, hs, k, { s with rdata := none }, hc, hm, rfl, ?_⟩
  rw [ht]
  simp [resultWords, Instr.slot]

theorem SequencePhase.driverTurn (h : SequencePhase e g n a d) :
    ∃ d', takeTurn .driver d = .next d' ∧ SequencePhase e g n a d' := by
  cases h with
  | settingUp h =>
    rcases h.driverTurn with ⟨hp, hc, ht⟩ | ⟨d', hx, h'⟩
    · obtain ⟨⟨hb, hr, herr⟩, _⟩ := h
      have hx := exec_trunc_of_idle (s := { d.machine with rdata := none }) hb
      exact ⟨_, takeTurn_instr hp hr rfl hx,
        .waiting 0 rfl hr herr hc (.inl ⟨rfl, rfl⟩) (by simp [ht])⟩
    · exact ⟨d', hx, .settingUp h'⟩
  | waiting k hp hr herr hc hm ht =>
    refine ⟨_, takeTurn_wait hp hr, ?_⟩
    rcases hm with ⟨hb, hd⟩ | hm
    · refine .waiting (k + 1) (by simp [hb]) hr herr hc (.inl ⟨hb, hd⟩) ?_
      rw [polledTrace, List.replicate_succ', ht, hb, hd]
      rfl
    · have ⟨⟨hb, hd, _⟩, _⟩ := hm
      refine .retrieving ⟨⟨hb, hr, herr⟩, retrieval, by simp [hb],
        runsIdle_retrieval (k := k) ⟨hb, hr, herr⟩ hc hm ?_⟩
      rw [ht, hb, hd]
      rfl
  | retrieving h =>
    rcases h.driverTurn with ⟨hp, _⟩ | ⟨d', hx, h'⟩
    · exact ⟨d, takeTurn_driver_nil hp, .retrieving h⟩
    · exact ⟨d', hx, .retrieving h'⟩

theorem SequencePhase.engineTurn (h : SequencePhase e g n a d) (ha : dlen a = some g.length)
    (hn : validDigits n = true) :
    ∃ d', takeTurn (.other .engine) d = .next d' ∧ SequencePhase e g n a d' := by
  cases h with
  | settingUp h =>
    obtain ⟨d', hx, h'⟩ := h.engineTurn
    exact ⟨d', hx, .settingUp h'⟩
  | waiting k hp hr herr hc hm ht =>
    rcases hm with ⟨hb, _⟩ | hm
    · obtain ⟨r, hx, hm'⟩ :=
        engineTurn_results_of_configured (s := { d.machine with rdata := none }) hc ha hn hb
      exact ⟨_, (takeTurn_engine d).trans (congrArg (afterMove · _) hx),
        .waiting k hp hr herr hc (.inr hm') ht⟩
    · exact ⟨_, takeTurn_engine_of_idle hm.1.1, .waiting k hp hr herr hc (.inr hm) ht⟩
  | retrieving h =>
    obtain ⟨d', hx, h'⟩ := h.engineTurn
    exact ⟨d', hx, .retrieving h'⟩

/-- A run of the sequence that has no line left has retrieved the results. -/
theorem SequencePhase.finished (h : SequencePhase e g n a d) (hp : d.program = []) :
    Retrieved e g n a { d.machine with rdata := none } d.trace := by
  cases h with
  | settingUp h => exact nomatch (h.finished hp).1
  | waiting k hprogram => exact nomatch hprogram.symm.trans hp
  | retrieving h => exact (h.finished hp).2

end

/-- `SETCFG`, the read of `ERR` and `LDDIG` run on an idle machine and leave the inputs set. -/
theorem runsIdle_setup {s : State} {g : List Byte} {n : BitVec 4} {alg : AlgName}
    (hb : s.busy = false) (hr : s.rst = false) (hwf : s.digest.wf)
    (hlen : dlen (algCode alg) = some g.length) (hn : validDigits n = true) :
    RunsIdle s.err (InputsSet s.err g n (algCode alg))
      (.wrCfg 0 (algCode alg) 0 n :: .rdErr :: lddig g) s [] := by
  have hcfg := exec_wrCfg_of_idle (s := { s with rdata := none }) hb 0 0 hn (validAlg_algCode alg)
  obtain ⟨t, hx, ht⟩ := execAll_setcfg_lddig (s := { s with rdata := none }) hb hwf hlen hn
  have hload := (execAll_cons _ hcfg).symm.trans hx
  have hidle : IdleWith s.err (State.configure { s with rdata := none } (algCode alg) n) :=
    ⟨hb, hr, rfl⟩
  exact ⟨rfl, _, hcfg, hidle, rfl, _, rfl, hidle,
    runsIdle_of_execAll (fun _ => setsInputs_lddigFrom) hidle hload ⟨ht, rfl⟩⟩

theorem sequencePhase_start {s : State} {g : List Byte} {n : BitVec 4} {alg : AlgName}
    (hb : s.busy = false) (hr : s.rst = false) (hwf : s.digest.wf)
    (hlen : dlen (algCode alg) = some g.length) (hn : validDigits n = true) :
    SequencePhase s.err g n (algCode alg) (Driver.start (driverSequence g n alg) s) :=
  .settingUp ⟨⟨hb, hr, rfl⟩, _, by simp [Driver.start, driverSequence, setcfg, retrieval],
    runsIdle_setup hb hr hwf hlen hn⟩

/-- Settles O59: the turns of the driver and of the engine keep `SequencePhase`, which holds at the start. -/
theorem driverSequenceGivesTheCode : Obligations.DriverSequenceGivesTheCode := by
  intro s g n alg turns hb hr hwf hlen hn hturns
  have hdigits := validDigits_iff.mpr hn
  obtain ⟨d, hd, hphase⟩ := drive_keeps (fun _ h => h.driverTurn)
    (fun _ h => h.engineTurn hlen hdigits) hturns (sequencePhase_start hb hr hwf hlen hdigits)
  refine ⟨d, hd, hphase.err, fun hp => ?_⟩
  obtain ⟨k, u, ⟨halg, hn', _⟩, ⟨⟨hidle, _, hcode⟩, hoffset, hvalue⟩, hscrub, ht⟩ :=
    hphase.finished hp
  exact ⟨k, _, _, _, ht,
    (BitVec.toNat_setWidth_of_le (by decide)).trans hcode,
    (BitVec.toNat_setWidth_of_le (by decide)).trans hoffset,
    (BitVec.toNat_setWidth_of_le (by decide)).trans hvalue,
    fun i _ => congrArg (fun t => t.digest.read i) hscrub,
    congrArg State.offset hscrub, congrArg State.value hscrub, congrArg State.code hscrub,
    congrArg State.done hscrub, (congrArg State.busy hscrub).trans hidle,
    (congrArg State.alg hscrub).trans halg, (congrArg State.digits hscrub).trans hn'⟩

end Sys2Proof.Machine

namespace Sys2Proof.Machine

/-! ### The turn of an idle engine, and the word placed for the next step (log entries 1 and 3) -/

/-- Settles O32: completion is enabled by `BUSY` alone. -/
theorem idleEngineChangesNothing : Obligations.IdleEngineChangesNothing :=
  fun _ => engineTurn_of_idle

theorem toOption_eq_some_iff {r : Except DecodeError Instr} {i : Instr} :
    r.toOption = some i ↔ r = .ok i := by
  cases r with
  | ok j => simp [Except.toOption]
  | error e => simp [Except.toOption]

/-- A table number decodes where it fits the bits of `T` and its word decodes (R61, log entry 14). -/
theorem decodeTableWord_eq_some_iff {nbits w : Nat} {i : Instr} :
    decodeTableWord nbits w = some i ↔
      w % 2 ^ nbits < 2 ^ 38 ∧ decode (BitVec.ofNat 38 (w % 2 ^ nbits)) = .ok i := by
  rw [decodeTableWord, Option.ite_none_right_eq_some, toOption_eq_some_iff]

/-- Settles O48: the next step makes the move that was presented, and its word decodes outside reset. -/
theorem placedWordRunsNext : Obligations.PlacedWordRunsNext := by
  intro s nbits w i h
  obtain ⟨-, hd⟩ := decodeTableWord_eq_some_iff.mp h
  exact (step_present s.releaseReset _).trans (hostTransaction_of_decode rfl hd)

end Sys2Proof.Machine
